-- ==== Sys2Proof/Word.lean ====
section
/-! DEFINITION. The machine's words: bytes, the flags mask, register indices (00_scope.md R7, R8, R9). -/

namespace Sys2Proof

/-- A register, ALU value, memory cell, opcode or operand byte: unsigned, 8 bits (R8, R21, R41). -/
abbrev Byte := BitVec 8

/-- The flags register's "3-bit mask" (R29): bit 0 E, bit 1 G, bit 2 L. -/
abbrev FlagBits := BitVec 3

/-- A valid register index, 0 to 7 (NUM_REGS = 8 is fixed, R7). -/
abbrev RegIndex := Fin 8

/-- SP_REG = 7 is fixed (R7, R22). -/
abbrev spIndex : RegIndex := 7

end Sys2Proof
end

