-- ==== Sys2Proof/Syntax.lean ====
section
/-! DEFINITION. The instructions: one constructor per row of spec/opcode_table.json (30_encoding.md R66), with the
operand bytes of its format (R65) as they stand in memory. A register operand is the whole byte (R68): whether it
names a register is checked when the instruction executes (00_scope.md R12). -/

namespace Sys2Proof

/-- The 22 instructions of R66, in the table's order. -/
inductive Instr where
  /-- HLT: halt (R142). -/
  | hlt
  /-- RET: return from subroutine (R131). -/
  | ret
  /-- PUSH Rr (R123). -/
  | push (r : Byte)
  /-- POP Rr (R124). -/
  | pop (r : Byte)
  /-- PRN Rr (R141). -/
  | prn (r : Byte)
  /-- CALL Rr (R130). -/
  | call (r : Byte)
  /-- JMP Rr (R132). -/
  | jmp (r : Byte)
  /-- JEQ Rr (R133). -/
  | jeq (r : Byte)
  /-- JNE Rr (R134). -/
  | jne (r : Byte)
  /-- NOT Rr (R110). -/
  | not (r : Byte)
  /-- LDI Rr, imm (R140). -/
  | ldi (r imm : Byte)
  /-- ADD Ra, Rb (R102). -/
  | add (a b : Byte)
  /-- SUB Ra, Rb (R103). -/
  | sub (a b : Byte)
  /-- MUL Ra, Rb (R104). -/
  | mul (a b : Byte)
  /-- DIV Ra, Rb (R105). -/
  | div (a b : Byte)
  /-- MOD Ra, Rb (R106). -/
  | mod (a b : Byte)
  /-- CMP Ra, Rb (R113). -/
  | cmp (a b : Byte)
  /-- AND Ra, Rb (R107). -/
  | and (a b : Byte)
  /-- OR Ra, Rb (R108). -/
  | or (a b : Byte)
  /-- XOR Ra, Rb (R109). -/
  | xor (a b : Byte)
  /-- SHL Ra, Rb (R111). -/
  | shl (a b : Byte)
  /-- SHR Ra, Rb (R112). -/
  | shr (a b : Byte)
deriving DecidableEq, Repr

end Sys2Proof
end

