-- ==== Sys2Proof/Decode.lean ====
section
/-! DEFINITION. Decoding (30_encoding.md R60 to R73): the opcode byte alone decides the instruction, its operand count
and its class (R67); the operand bytes follow. Then the encoder, written from the same table (R65, R66). -/

namespace Sys2Proof

/-- The mnemonics of R66. -/
inductive Mnemonic where
  | hlt | ret | push | pop | prn | call | jmp | jeq | jne | not | ldi
  | add | sub | mul | div | mod | cmp | and | or | xor | shl | shr
deriving DecidableEq, Repr

/-- R66's "operands" column: the declared number of operand bytes. -/
def Mnemonic.operandCount : Mnemonic → Nat
  | .hlt | .ret => 0
  | .push | .pop | .prn | .call | .jmp | .jeq | .jne | .not => 1
  | .ldi | .add | .sub | .mul | .div | .mod | .cmp | .and | .or | .xor | .shl | .shr => 2

/-- R66's "CF" column, "an explicit, declared property of each instruction variant" (R64). -/
def Mnemonic.controlFlow : Mnemonic → Bool
  | .ret | .call | .jmp | .jeq | .jne => true
  | .hlt | .push | .pop | .prn | .not | .ldi => false
  | .add | .sub | .mul | .div | .mod | .cmp | .and | .or | .xor | .shl | .shr => false

/-- The instruction a constructor belongs to. -/
def Instr.mnemonic : Instr → Mnemonic
  | .hlt => .hlt
  | .ret => .ret
  | .push _ => .push
  | .pop _ => .pop
  | .prn _ => .prn
  | .call _ => .call
  | .jmp _ => .jmp
  | .jeq _ => .jeq
  | .jne _ => .jne
  | .not _ => .not
  | .ldi _ _ => .ldi
  | .add _ _ => .add
  | .sub _ _ => .sub
  | .mul _ _ => .mul
  | .div _ _ => .div
  | .mod _ _ => .mod
  | .cmp _ _ => .cmp
  | .and _ _ => .and
  | .or _ _ => .or
  | .xor _ _ => .xor
  | .shl _ _ => .shl
  | .shr _ _ => .shr

/-- R67: "pure and total over the byte range 0–255"; the whole byte is looked up (R63), and a byte with no row is
InvalidOpcode (R71), here `none`. -/
def decodeOpcode (b : Byte) : Option Mnemonic :=
  match b.toNat with
  | 0x01 => some .hlt
  | 0x11 => some .ret
  | 0x45 => some .push
  | 0x46 => some .pop
  | 0x47 => some .prn
  | 0x50 => some .call
  | 0x54 => some .jmp
  | 0x55 => some .jeq
  | 0x56 => some .jne
  | 0x69 => some .not
  | 0x82 => some .ldi
  | 0xA0 => some .add
  | 0xA1 => some .sub
  | 0xA2 => some .mul
  | 0xA3 => some .div
  | 0xA4 => some .mod
  | 0xA7 => some .cmp
  | 0xA8 => some .and
  | 0xAA => some .or
  | 0xAB => some .xor
  | 0xAC => some .shl
  | 0xAD => some .shr
  | _ => none

/-- The instruction with its operand bytes in place, first operand byte first (R65). A mnemonic takes the first
`operandCount` bytes of the list and no other. -/
def Mnemonic.build (m : Mnemonic) (ops : List Byte) : Instr :=
  let op1 := ops.getD 0 0
  let op2 := ops.getD 1 0
  match m with
  | .hlt => .hlt
  | .ret => .ret
  | .push => .push op1
  | .pop => .pop op1
  | .prn => .prn op1
  | .call => .call op1
  | .jmp => .jmp op1
  | .jeq => .jeq op1
  | .jne => .jne op1
  | .not => .not op1
  | .ldi => .ldi op1 op2
  | .add => .add op1 op2
  | .sub => .sub op1 op2
  | .mul => .mul op1 op2
  | .div => .div op1 op2
  | .mod => .mod op1 op2
  | .cmp => .cmp op1 op2
  | .and => .and op1 op2
  | .or => .or op1 op2
  | .xor => .xor op1 op2
  | .shl => .shl op1 op2
  | .shr => .shr op1 op2

/-- Why a byte sequence is not an instruction. -/
inductive DecodeError where
  /-- There is no opcode byte. -/
  | noOpcode
  /-- The opcode byte is not a row of R66 (R71). -/
  | invalidOpcode (b : Byte)
  /-- Fewer operand bytes follow than the opcode byte declares (R73). -/
  | missingOperand (m : Mnemonic)
deriving DecidableEq, Repr

/-- An instruction from the front of a byte sequence, with the bytes after it. An illegal opcode is reported before any
operand byte is looked at (R73, R83). -/
def decode : List Byte → Except DecodeError (Instr × List Byte)
  | [] => .error .noOpcode
  | b :: rest =>
    match decodeOpcode b with
    | none => .error (.invalidOpcode b)
    | some m =>
      if m.operandCount ≤ rest.length then
        .ok (m.build (rest.take m.operandCount), rest.drop m.operandCount)
      else .error (.missingOperand m)

/-- The bytes of an instruction at increasing addresses (R44), from the opcode column and the formats of R65, R66. -/
def encode : Instr → List Byte
  | .hlt => [0x01]
  | .ret => [0x11]
  | .push r => [0x45, r]
  | .pop r => [0x46, r]
  | .prn r => [0x47, r]
  | .call r => [0x50, r]
  | .jmp r => [0x54, r]
  | .jeq r => [0x55, r]
  | .jne r => [0x56, r]
  | .not r => [0x69, r]
  | .ldi r imm => [0x82, r, imm]
  | .add a b => [0xA0, a, b]
  | .sub a b => [0xA1, a, b]
  | .mul a b => [0xA2, a, b]
  | .div a b => [0xA3, a, b]
  | .mod a b => [0xA4, a, b]
  | .cmp a b => [0xA7, a, b]
  | .and a b => [0xA8, a, b]
  | .or a b => [0xAA, a, b]
  | .xor a b => [0xAB, a, b]
  | .shl a b => [0xAC, a, b]
  | .shr a b => [0xAD, a, b]

/-- The first three bytes (the longest instruction, R60) of a number whose bit 0 is bit 0 of the first byte; the bits
at and above `nbits` are taken as 0. -/
def tableBytes (nbits w : Nat) : List Byte :=
  let v := w % 2 ^ nbits
  [BitVec.ofNat 8 v, BitVec.ofNat 8 (v / 256), BitVec.ofNat 8 (v / 65536)]

/-- The instruction the decoder reads from an instruction given as a number in spec/opcode_table.json's bit numbering;
`none` where the decoder rejects it. -/
def decodeTableWord (nbits w : Nat) : Option Instr :=
  match decode (tableBytes nbits w) with
  | .ok (i, _) => some i
  | .error _ => none

end Sys2Proof
end

