-- ==== Sys2Proof/Config.lean ====
section
/-! DEFINITION. The implementation parameters of 00_scope.md R7. The spec leaves no other value open, so there is no
free value here: the four parameters below are fixed when a block is constructed. -/

namespace Sys2Proof

/-- SP_OPERAND_POLICY (R7, 42_stack.md R122): what PUSH R7, POP R7 and CALL R7 mean. -/
inductive SpOperandPolicy where
  /-- The default: the three forms have no meaning and the step is refused (R122, R158). -/
  | refuse
  /-- The document's sentences in their written order (R122). -/
  | sequential
deriving DecidableEq, Repr

/-- The parameters that a construction fixes (R7). NUM_REGS, SP_REG and WORD_BITS are fixed by R7 itself
(`Word.lean`); CYCLE_BUDGET belongs to one call of `run` (R38, R161) and is an argument there. -/
structure Config where
  /-- MEM_CAPACITY: the number of byte cells. -/
  memCapacity : Nat
  /-- STACK_TOP: the stack pointer value of an empty stack. -/
  stackTop : Nat
  /-- FLAGS_RESET: FL after construction. -/
  flagsReset : FlagBits
  /-- SP_OPERAND_POLICY. -/
  spPolicy : SpOperandPolicy
deriving DecidableEq, Repr

/-- R7's defaults. -/
def Config.default : Config :=
  { memCapacity := 256, stackTop := 0xF4, flagsReset := 0b000, spPolicy := .refuse }

/-- R7's constraint column. -/
abbrev Config.Valid (c : Config) : Prop :=
  1 ≤ c.memCapacity ∧ c.memCapacity ≤ 256 ∧
  1 ≤ c.stackTop ∧ c.stackTop ≤ c.memCapacity ∧ c.stackTop ≤ 255 ∧
  (c.flagsReset = 0b000 ∨ c.flagsReset = 0b001 ∨ c.flagsReset = 0b010 ∨ c.flagsReset = 0b100)

end Sys2Proof
end

