-- ==== Sys2Proof/Machine/State.lean ====
section
/-! DEFINITION. The architectural state (10_state.md R20), as plain data, and the state after construction, the block's
only reset (R39, 70_reset_and_hazards.md R180). -/

namespace Sys2Proof.Machine

/-- The fault kinds, 60_exceptions.md R150, in the document's order. A handler or a fetch raises one; `takeFault` then
enters `Faulted(kind)`, which is a NEXT state of the block (R13, R80, R89), so `step` and `exec` never answer
`Host.Outcome.fault`. A host command that fails answers one to the host (R160, R164, R165). -/
inductive Fault where
  /-- Raised by decoding in any step: the byte at pc is not in R66 (R83). Safe: the spec's own fault. -/
  | invalidOpcode
  /-- Raised by the fetch, an operand read, a register index of 8 or more, a stack access or CALL's return address;
  answered by the host accessors. Safe: the spec's own fault. -/
  | outOfBoundsAccess
  /-- Raised by DIV and MOD when x[b] = 0 (R105, R106). Safe: the spec's own fault. -/
  | divisionByZero
  /-- Raised by nothing (41_alu.md R115); kept because R150 lists it. Safe: unreachable, as the spec says. -/
  | unsupportedAluOperation
  /-- Raised by PUSH and CALL when x[7] = 0 (R120). Safe: the spec's own fault. -/
  | stackOverflow
  /-- Raised by POP and RET when x[7] ≥ STACK_TOP (R121). Safe: the spec's own fault. -/
  | stackUnderflow
  /-- Answered by `load` only, never by a step (R160). Safe: the spec's own load error. -/
  | programTooLarge
deriving DecidableEq, Repr

/-- Why a step has no meaning. -/
inductive Refusal where
  /-- Answered by an arm of `exec` for an instruction without a meaning; no arm does. Safe: the model stops. -/
  | notModelled (mnemonic : String)
  /-- `Refused(SpOperand)`, 60_exceptions.md R158: answered by PUSH R7, POP R7 and CALL R7 under
  SP_OPERAND_POLICY = Refuse, the spec's default (42_stack.md R122). Safe: the model stops and changes no state. -/
  | spOperand
deriving DecidableEq, Repr

/-- The loop state (R33). `halted` and `faulted` are terminal (R80, R154). -/
inductive LoopState where
  | running
  | halted
  | faulted (kind : Fault)
deriving DecidableEq, Repr

/-- Memory: the cells that differ from an unwritten one, as (address, byte) pairs. `Ops.lean` reads and writes it and
says when it is in canonical form. -/
abbrev Memory := List Host.Cell

/-- `(x[0..7], pc, FL, mem, state, out)` of R20, and the construction parameters of R7 (log entry 1: they are not the
spec's state, no instruction reads them as data and no step changes them). -/
structure State where
  /-- x[0] to x[7], the register file (R21); x[7] is the stack pointer (R22). -/
  regs : Vector Byte 8
  /-- The program counter, a natural number that never wraps (R25, R26). -/
  pc : Nat
  /-- FL (R29). -/
  fl : FlagBits
  /-- The memory cells (R36, R40). -/
  mem : Memory
  /-- The loop state (R33). -/
  loop : LoopState
  /-- The values emitted on the output port, oldest first (R37). -/
  out : List Byte
  /-- The parameters of this block (R7). -/
  cfg : Config
deriving DecidableEq, Repr

/-- Construction of a block with parameters `c`: R39's table. -/
def State.construct (c : Config) : State :=
  { regs := Vector.replicate 8 0
    pc := 0
    fl := c.flagsReset
    mem := []
    loop := .running
    out := []
    cfg := c }

/-- The machine right after reset: construction with R7's default parameters (R39, R180). -/
def State.reset : State := State.construct Config.default

end Sys2Proof.Machine
end

