-- ==== Sys2Proof/Machine/Ops.lean ====
section
/-! DEFINITION. The named operations over memory, registers and the loop state, and the one way an instruction ends:
`retire` (40_dispatch.md R87, R89, R90). A handler is a function into `Except Fault State`: `.error k` is
`raise k` of 00_scope.md R13, `.ok t` holds all its writes, which commit together (R14). -/

namespace Sys2Proof.Machine

/-! ### Memory as data -/

/-- What a cell that nothing has written reads as: memory is "zero-initialized" (10_state.md R36). -/
def unlistedByte : Byte := 0

/-- The cell at an address. -/
def Memory.read : Memory → Nat → Byte
  | [], _ => unlistedByte
  | c :: m, a => if c.1 = a then c.2 else Memory.read m a

/-- The list without the cell at an address. -/
def Memory.erase : Memory → Nat → Memory
  | [], _ => []
  | c :: m, a => if c.1 = a then Memory.erase m a else c :: Memory.erase m a

/-- The list with a cell put before the first one of a higher address. -/
def Memory.insert : Memory → Nat → Byte → Memory
  | [], a, v => [(a, v)]
  | c :: m, a, v => if a < c.1 then (a, v) :: c :: m else c :: Memory.insert m a v

/-- `mem[a] <- v`, keeping the canonical form: a value that an unlisted cell reads as removes the entry. -/
def Memory.write (m : Memory) (a : Nat) (v : Byte) : Memory :=
  if v = unlistedByte then Memory.erase m a else Memory.insert (Memory.erase m a) a v

/-- The canonical form: addresses strictly rising, no entry equal to what an unlisted address reads as. -/
abbrev Memory.wf (m : Memory) : Prop :=
  m.Pairwise (fun c d => c.1 < d.1) ∧ ∀ c ∈ m, c.2 ≠ unlistedByte

/-- Bytes written at increasing addresses from `a` (R44, 60_exceptions.md R159). -/
def storeBytes (a : Nat) : List Byte → Memory → Memory
  | [], m => m
  | b :: bs, m => storeBytes (a + 1) bs (Memory.write m a b)

/-! ### Registers, flags, pc, output, loop state -/

/-- `x[i]` (R10). No register is hard-wired (R21). -/
def State.reg (s : State) (r : RegIndex) : Byte := s.regs[r]

/-- `x[i] <- v` (R10). -/
def State.setReg (s : State) (r : RegIndex) (v : Byte) : State :=
  { s with regs := s.regs.set r v }

/-- `SP`, another name for `x[7]` (R10, R22). -/
def State.sp (s : State) : Byte := s.reg spIndex

/-- `x[7] <- v`. -/
def State.setSp (s : State) (v : Byte) : State := s.setReg spIndex v

/-- `pc <- target` (R10). -/
def State.setPc (s : State) (target : Nat) : State := { s with pc := target }

/-- `FL <- v` (R10). -/
def State.setFl (s : State) (v : FlagBits) : State := { s with fl := v }

/-- `emit(v)`: appends to `out` (R10, R163). -/
def State.emit (s : State) (v : Byte) : State := { s with out := s.out ++ [v] }

/-- `state <- Halted` (R142). -/
def State.halt (s : State) : State := { s with loop := .halted }

/-! ### Taking a fault -/

/-- Taking a fault `k` in state `s`, the state before the faulting instruction (R13, R89, R151): the loop state becomes
`Faulted(k)` and nothing else changes, so pc keeps the address of the faulting opcode byte. There is no trap entry, no
saved register and no vector (R153). There is no return from a fault: nothing leaves `Faulted` (R154), so no
definition stands beside this one. -/
def takeFault (k : Fault) (s : State) : State := { s with loop := .faulted k }

/-! ### Memory access by fetch, instructions and host -/

/-- `MemRead(a, 1)` (R11, R43). -/
def memRead (a : Nat) (s : State) : Except Fault Byte :=
  if a < s.cfg.memCapacity then .ok (Memory.read s.mem a) else .error .outOfBoundsAccess

/-- `MemWrite(a, 1, v)` (R11, R43). -/
def memWrite (a : Nat) (v : Byte) (s : State) : Except Fault State :=
  if a < s.cfg.memCapacity then .ok { s with mem := Memory.write s.mem a v } else .error .outOfBoundsAccess

/-! ### The stack mechanics -/

/-- `Push(v)` (42_stack.md R120): the overflow check is on SP before the decrement. -/
def push (v : Byte) (s : State) : Except Fault State :=
  if s.sp = 0 then .error .stackOverflow
  else memWrite (s.sp - 1).toNat v (s.setSp (s.sp - 1))

/-- `Pop()` (42_stack.md R121): the value and the state with SP incremented; the cell keeps its value. -/
def pop (s : State) : Except Fault (Byte × State) :=
  if s.cfg.stackTop ≤ s.sp.toNat then .error .stackUnderflow
  else
    match memRead s.sp.toNat s with
    | .error k => .error k
    | .ok v => .ok (v, s.setSp (s.sp + 1))

/-! ### How an instruction ends -/

/-- Phase 5 (40_dispatch.md R87): the loop advances pc by 1 + operand count after an instruction that is not
control-flow-class; a control-flow handler has set pc itself. `s` is the state before the instruction. -/
def advance (m : Mnemonic) (s t : State) : State :=
  if m.controlFlow then t else t.setPc (s.pc + 1 + m.operandCount)

/-- Phase 5 and the commit of a handler's writes, or the taking of the fault it raised (R87, R89, R90). -/
def retire (m : Mnemonic) (s : State) : Except Fault State → Host.Outcome State Fault Refusal
  | .ok t => .next (advance m s t)
  | .error k => .next (takeFault k s)

end Sys2Proof.Machine
end

