-- ==== Sys2Proof/Machine/Flags.lean ====
section
/-! DEFINITION. The flags register: what CMP puts into it (41_alu.md R113, R114) and the one bit JEQ and JNE test
(43_control_flow.md R133 to R135). The bit positions are those of 10_state.md R29. -/

namespace Sys2Proof.Machine

/-- E, EQUAL: bit 0. -/
def flagE : FlagBits := 0b001

/-- G, GREATER_THAN: bit 1. -/
def flagG : FlagBits := 0b010

/-- L, LESS_THAN: bit 2. -/
def flagL : FlagBits := 0b100

/-- FL after CMP of `x` with `y`, unsigned: exactly one bit (R113, R114). -/
def compareFlags (x y : Byte) : FlagBits :=
  if x = y then flagE else if y < x then flagG else flagL

/-- FL[0], the bitmask test of R135. -/
def equalBit (fl : FlagBits) : Bool := fl.getLsbD 0

/-- "In every reachable state FL has at most one bit set" (10_state.md R32). -/
abbrev FlagBits.atMostOne (fl : FlagBits) : Prop := fl = 0 ∨ fl = flagE ∨ fl = flagG ∨ fl = flagL

end Sys2Proof.Machine
end

