-- ==== Sys2Proof/Machine/Operands.lean ====
section
/-! DEFINITION. The operand forms: register index bytes (00_scope.md R12, 30_encoding.md R68), in the order in which a
handler checks them (41_alu.md R100), and the stack pointer as the operand of PUSH, POP and CALL (42_stack.md R122).
LDI's immediate is its operand byte unchanged (R69) and needs no operation. -/

namespace Sys2Proof.Machine

/-- `Reg(b)` (R12): the whole byte is the index; 8 or more raises OutOfBoundsAccess. -/
def regIndex (b : Byte) : Except Fault RegIndex :=
  if h : b.toNat < 8 then .ok ⟨b.toNat, h⟩ else .error .outOfBoundsAccess

/-- `a <- Reg(op1); b <- Reg(op2)` (R100): an invalid first index is reported before an invalid second one. -/
def regPair (op1 op2 : Byte) : Except Fault (RegIndex × RegIndex) :=
  match regIndex op1 with
  | .error k => .error k
  | .ok a =>
    match regIndex op2 with
    | .error k => .error k
    | .ok b => .ok (a, b)

/-- The operand byte that names a register (R68). -/
def regByte (r : RegIndex) : Byte := BitVec.ofNat 8 r.val

/-- R122, R158: under `Refuse`, a step whose instruction is PUSH R7, POP R7 or CALL R7 is refused and changes no state;
every other form has its outcome `o`. -/
def guardSpOperand (r : Byte) (s : State) (o : Host.Outcome State Fault Refusal) :
    Host.Outcome State Fault Refusal :=
  if r = regByte spIndex ∧ s.cfg.spPolicy = .refuse then .refused .spOperand else o

end Sys2Proof.Machine
end

