-- ==== Sys2Proof/Machine/Alu.lean ====
section
/-! DEFINITION. The ALU instructions (41_alu.md): pure functions of two 8-bit values, the shared shapes of their
handlers, and one meaning per instruction. None is control-flow-class, so `retire` advances pc. -/

namespace Sys2Proof.Machine

/-! ### The ALU's functions (R101: unsigned, 8 bits, wrapping where the rule says `mod 256`) -/

/-- R102. -/
def aluAdd (x y : Byte) : Byte := x + y

/-- R103. -/
def aluSub (x y : Byte) : Byte := x - y

/-- R104: the low 8 bits of the product. -/
def aluMul (x y : Byte) : Byte := x * y

/-- R105: the unsigned quotient; the zero divisor is the handler's fault. -/
def aluDiv (x y : Byte) : Byte := x / y

/-- R106: the unsigned remainder; the zero divisor is the handler's fault. -/
def aluMod (x y : Byte) : Byte := x % y

/-- R107. -/
def aluAnd (x y : Byte) : Byte := x &&& y

/-- R108. -/
def aluOr (x y : Byte) : Byte := x ||| y

/-- R109. -/
def aluXor (x y : Byte) : Byte := x ^^^ y

/-- R110. -/
def aluNot (x : Byte) : Byte := ~~~x

/-- R111: the count is the whole 8-bit value, so 8 or more gives 0. -/
def aluShl (x y : Byte) : Byte := x <<< y.toNat

/-- R112: logical; the count is the whole 8-bit value. -/
def aluShr (x y : Byte) : Byte := x >>> y.toNat

/-! ### The handlers' shapes -/

/-- R100: `x[a] <- f(x[a], x[b])`. -/
def aluBinary (f : Byte → Byte → Byte) (op1 op2 : Byte) (s : State) : Except Fault State :=
  match regPair op1 op2 with
  | .error k => .error k
  | .ok (a, b) => .ok (s.setReg a (f (s.reg a) (s.reg b)))

/-- R105, R106: the index checks come first, then the zero divisor. -/
def aluDivide (f : Byte → Byte → Byte) (op1 op2 : Byte) (s : State) : Except Fault State :=
  match regPair op1 op2 with
  | .error k => .error k
  | .ok (a, b) =>
    if s.reg b = 0 then .error .divisionByZero else .ok (s.setReg a (f (s.reg a) (s.reg b)))

/-- R110: `x[r] <- f(x[r])`. -/
def aluUnary (f : Byte → Byte) (op1 : Byte) (s : State) : Except Fault State :=
  match regIndex op1 with
  | .error k => .error k
  | .ok r => .ok (s.setReg r (f (s.reg r)))

/-- R113: CMP writes FL and no register. -/
def aluCompare (op1 op2 : Byte) (s : State) : Except Fault State :=
  match regPair op1 op2 with
  | .error k => .error k
  | .ok (a, b) => .ok (s.setFl (compareFlags (s.reg a) (s.reg b)))

/-! ### The meanings -/

/-- NOT Rr (R110). -/
def execNot (r : Byte) (s : State) : Host.Outcome State Fault Refusal :=
  retire .not s (aluUnary aluNot r s)

/-- ADD Ra, Rb (R102). -/
def execAdd (a b : Byte) (s : State) : Host.Outcome State Fault Refusal :=
  retire .add s (aluBinary aluAdd a b s)

/-- SUB Ra, Rb (R103). -/
def execSub (a b : Byte) (s : State) : Host.Outcome State Fault Refusal :=
  retire .sub s (aluBinary aluSub a b s)

/-- MUL Ra, Rb (R104). -/
def execMul (a b : Byte) (s : State) : Host.Outcome State Fault Refusal :=
  retire .mul s (aluBinary aluMul a b s)

/-- DIV Ra, Rb (R105). -/
def execDiv (a b : Byte) (s : State) : Host.Outcome State Fault Refusal :=
  retire .div s (aluDivide aluDiv a b s)

/-- MOD Ra, Rb (R106). -/
def execMod (a b : Byte) (s : State) : Host.Outcome State Fault Refusal :=
  retire .mod s (aluDivide aluMod a b s)

/-- CMP Ra, Rb (R113). -/
def execCmp (a b : Byte) (s : State) : Host.Outcome State Fault Refusal :=
  retire .cmp s (aluCompare a b s)

/-- AND Ra, Rb (R107). -/
def execAnd (a b : Byte) (s : State) : Host.Outcome State Fault Refusal :=
  retire .and s (aluBinary aluAnd a b s)

/-- OR Ra, Rb (R108). -/
def execOr (a b : Byte) (s : State) : Host.Outcome State Fault Refusal :=
  retire .or s (aluBinary aluOr a b s)

/-- XOR Ra, Rb (R109). -/
def execXor (a b : Byte) (s : State) : Host.Outcome State Fault Refusal :=
  retire .xor s (aluBinary aluXor a b s)

/-- SHL Ra, Rb (R111). -/
def execShl (a b : Byte) (s : State) : Host.Outcome State Fault Refusal :=
  retire .shl s (aluBinary aluShl a b s)

/-- SHR Ra, Rb (R112). -/
def execShr (a b : Byte) (s : State) : Host.Outcome State Fault Refusal :=
  retire .shr s (aluBinary aluShr a b s)

end Sys2Proof.Machine
end

