-- ==== Sys2Proof/Machine/ControlFlow.lean ====
section
/-! DEFINITION. CALL, RET, JMP, JEQ, JNE (43_control_flow.md). All five are control-flow-class, so each handler sets pc
on every path that does not raise. Targets are absolute (R136). -/

namespace Sys2Proof.Machine

/-- CALL's handler (R130): the register index, the return address check (D13), the push, then the jump. The target is
read after the push, which for R7 under `Sequential` gives the decremented SP (R122) and for every other register
the value it had. -/
def callHandler (op1 : Byte) (s : State) : Except Fault State :=
  match regIndex op1 with
  | .error k => .error k
  | .ok r =>
    if 255 < s.pc + 2 then .error .outOfBoundsAccess
    else
      match push (BitVec.ofNat 8 (s.pc + 2)) s with
      | .error k => .error k
      | .ok t => .ok (t.setPc (t.reg r).toNat)

/-- RET's handler (R131): `pc <- Pop()`. -/
def retHandler (s : State) : Except Fault State :=
  match pop s with
  | .error k => .error k
  | .ok (v, t) => .ok (t.setPc v.toNat)

/-- JMP, JEQ and JNE (R132 to R134): the index is checked first, taken or not; a branch not taken goes to pc + 2. -/
def branch (taken : Bool) (op1 : Byte) (s : State) : Except Fault State :=
  match regIndex op1 with
  | .error k => .error k
  | .ok r => .ok (s.setPc (if taken then (s.reg r).toNat else s.pc + 2))

/-- CALL Rr (R130, R122). -/
def execCall (r : Byte) (s : State) : Host.Outcome State Fault Refusal :=
  guardSpOperand r s (retire .call s (callHandler r s))

/-- RET (R131). -/
def execRet (s : State) : Host.Outcome State Fault Refusal :=
  retire .ret s (retHandler s)

/-- JMP Rr (R132). -/
def execJmp (r : Byte) (s : State) : Host.Outcome State Fault Refusal :=
  retire .jmp s (branch true r s)

/-- JEQ Rr (R133). -/
def execJeq (r : Byte) (s : State) : Host.Outcome State Fault Refusal :=
  retire .jeq s (branch (equalBit s.fl) r s)

/-- JNE Rr (R134). -/
def execJne (r : Byte) (s : State) : Host.Outcome State Fault Refusal :=
  retire .jne s (branch (!equalBit s.fl) r s)

end Sys2Proof.Machine
end

