-- ==== Sys2Proof/Machine/LoadPrintHalt.lean ====
section
/-! DEFINITION. LDI, PRN, HLT (44_load_print_halt.md). None is control-flow-class: `retire` advances pc. -/

namespace Sys2Proof.Machine

/-- LDI's handler (R140): `x[r] <- op2`, every immediate value legal (R69). -/
def ldiHandler (op1 imm : Byte) (s : State) : Except Fault State :=
  match regIndex op1 with
  | .error k => .error k
  | .ok r => .ok (s.setReg r imm)

/-- PRN's handler (R141): `emit(x[r])`. -/
def prnHandler (op1 : Byte) (s : State) : Except Fault State :=
  match regIndex op1 with
  | .error k => .error k
  | .ok r => .ok (s.emit (s.reg r))

/-- LDI Rr, imm (R140). -/
def execLdi (r imm : Byte) (s : State) : Host.Outcome State Fault Refusal :=
  retire .ldi s (ldiHandler r imm s)

/-- PRN Rr (R141). -/
def execPrn (r : Byte) (s : State) : Host.Outcome State Fault Refusal :=
  retire .prn s (prnHandler r s)

/-- HLT (R142). pc ends one past the HLT byte (R88); "PC irrelevant afterward", so no claim reads it (log entry 7). -/
def execHlt (s : State) : Host.Outcome State Fault Refusal :=
  retire .hlt s (.ok s.halt)

end Sys2Proof.Machine
end

