-- ==== Sys2Proof/Machine/Stack.lean ====
section
/-! DEFINITION. PUSH and POP (42_stack.md R122 to R124). With an operand other than R7 they are `Push(x[r])` and
`x[r] <- Pop()`; with R7 they are refused, or run the document's steps in order (R122). -/

namespace Sys2Proof.Machine

/-- The byte PUSH stores: x[r] (R123); for PUSH R7 under `Sequential` the decremented SP (R122). -/
def pushedValue (r : RegIndex) (s : State) : Byte := if r = spIndex then s.sp - 1 else s.reg r

/-- PUSH's handler: the register index, then the push. -/
def pushHandler (op1 : Byte) (s : State) : Except Fault State :=
  match regIndex op1 with
  | .error k => .error k
  | .ok r => push (pushedValue r s) s

/-- POP's handler: `x[r] <- Pop()` (R124); for POP R7 under `Sequential` the value read is written to R7 and then
incremented modulo 256 (R122). -/
def popHandler (op1 : Byte) (s : State) : Except Fault State :=
  match regIndex op1 with
  | .error k => .error k
  | .ok r =>
    match pop s with
    | .error k => .error k
    | .ok (v, t) => .ok (if r = spIndex then s.setSp (v + 1) else t.setReg r v)

/-- PUSH Rr (R123, R122). -/
def execPush (r : Byte) (s : State) : Host.Outcome State Fault Refusal :=
  guardSpOperand r s (retire .push s (pushHandler r s))

/-- POP Rr (R124, R122). -/
def execPop (r : Byte) (s : State) : Host.Outcome State Fault Refusal :=
  guardSpOperand r s (retire .pop s (popHandler r s))

end Sys2Proof.Machine
end

