-- ==== Sys2Proof/Machine/Fetch.lean ====
section
/-! DEFINITION. Phases 1 to 3 of a cycle (40_dispatch.md R82 to R84): the opcode byte, its decoding, the operand bytes.
Also the bytes that a fetch can see, and how an instruction is put where the next fetch finds it. -/

namespace Sys2Proof.Machine

/-- Phase 3: `n` operand bytes from address `a` on, in order (R84). -/
def readOperands : Nat → Nat → State → Except Fault (List Byte)
  | 0, _, _ => .ok []
  | n + 1, a, s =>
    match memRead a s with
    | .error k => .error k
    | .ok b =>
      match readOperands n (a + 1) s with
      | .error k => .error k
      | .ok bs => .ok (b :: bs)

/-- Phases 1 to 3 at pc (R82, R83, R84): no operand byte is read after an invalid opcode. -/
def fetch (s : State) : Except Fault Instr :=
  match memRead s.pc s with
  | .error k => .error k
  | .ok opcode =>
    match decodeOpcode opcode with
    | none => .error .invalidOpcode
    | some m =>
      match readOperands m.operandCount (s.pc + 1) s with
      | .error k => .error k
      | .ok ops => .ok (m.build ops)

/-- The bytes of memory from address `a` on, at most `n`, none at or past MEM_CAPACITY. -/
def bytesFrom : Nat → Nat → State → List Byte
  | 0, _, _ => []
  | n + 1, a, s => if a < s.cfg.memCapacity then Memory.read s.mem a :: bytesFrom n (a + 1) s else []

/-- The bytes at pc, as many as the longest instruction has (R60). -/
def bytesAtPc (s : State) : List Byte := bytesFrom 3 s.pc s

/-- The cells of memory from pc on, in range, given the bytes of a table word. -/
def storeFetchWord (nbits w : Nat) (s : State) : State :=
  { s with mem := storeBytes s.pc ((tableBytes nbits w).take (s.cfg.memCapacity - s.pc)) s.mem }

end Sys2Proof.Machine
end

