-- ==== Sys2Proof/Machine/Loop.lean ====
section
/-! DEFINITION. One cycle of the execution loop (40_dispatch.md R81, R90) and its gate on the loop state (R80). -/

namespace Sys2Proof.Machine

/-- One cycle: fetch, decode, operand read (`fetch`), then the instruction with its pc advance (`exec`); a raise in the
first three phases takes the fault in the state the cycle began in (R89). -/
def cycle (s : State) : Host.Outcome State Fault Refusal :=
  match fetch s with
  | .error k => .next (takeFault k s)
  | .ok i => exec i s

/-- R80: a cycle when Running; Halted and Faulted are terminal and a step there changes nothing. -/
def loopStep (s : State) : Host.Outcome State Fault Refusal :=
  match s.loop with
  | .running => cycle s
  | .halted => .next s
  | .faulted _ => .next s

end Sys2Proof.Machine
end

