-- ==== Sys2Proof/Machine/Step.lean ====
section
/-! DEFINITION. `step()` of 40_dispatch.md R90, and the placing of one instruction where the next step fetches it. -/

namespace Sys2Proof.Machine

/-- One step of the block (R80, R90). -/
def step (s : State) : Host.Outcome State Fault Refusal := loopStep s

/-- `s` with the instruction `w` (in spec/opcode_table.json's bit numbering, the bits at and above `nbits` zero) in the
cells at pc, pc + 1, pc + 2; cells past the end of memory do not exist and are not written. Nothing else changes: it
stands for the host's `load` of a program (R159, log entry 4). -/
def State.withFetchWord (s : State) (nbits w : Nat) : State := storeFetchWord nbits w s

end Sys2Proof.Machine
end

