-- ==== Sys2Proof/Machine/HostPort.lean ====
section
/-! DEFINITION. The host control port (60_exceptions.md R157 to R166): `load`, `step`, `run` with an optional cycle
budget, the memory and register accessors, and what `step` may report beside the loop state (40_dispatch.md R91).
Each is a function of the state between steps (R162). -/

namespace Sys2Proof.Machine

/-- R150's code of a fault kind. -/
def Fault.code : Fault → Nat
  | .invalidOpcode => 1
  | .outOfBoundsAccess => 2
  | .divisionByZero => 3
  | .unsupportedAluOperation => 4
  | .stackOverflow => 5
  | .stackUnderflow => 6
  | .programTooLarge => 7

/-! ### load and the accessors: an error is a result for the host and changes nothing -/

/-- `load(bytes)` (R159, R160): all of the bytes at address 0 up, or none. It is not a reset. -/
def load (bytes : List Byte) (s : State) : Except Fault State :=
  if bytes.length ≤ s.cfg.memCapacity then .ok { s with mem := storeBytes 0 bytes s.mem }
  else .error .programTooLarge

/-- `memory_read(a)` (R164). -/
def memoryRead (a : Nat) (s : State) : Except Fault Byte := memRead a s

/-- `memory_write(a, v)` (R164). -/
def memoryWrite (a : Nat) (v : Byte) (s : State) : Except Fault State := memWrite a v s

/-- `register_read(idx)` (R165). -/
def registerRead (idx : Nat) (s : State) : Except Fault Byte :=
  if h : idx < 8 then .ok (s.reg ⟨idx, h⟩) else .error .outOfBoundsAccess

/-- `register_write(idx, v)` (R165); index 7 sets the stack pointer. -/
def registerWrite (idx : Nat) (v : Byte) (s : State) : Except Fault State :=
  if h : idx < 8 then .ok (s.setReg ⟨idx, h⟩ v) else .error .outOfBoundsAccess

/-! ### step as a host command -/

/-- What `step` answers the host: the new loop state (R91), or in a model a refusal (R158). -/
inductive StepResult where
  | loop (l : LoopState)
  | refused (r : Refusal)
deriving DecidableEq, Repr

/-- `step()` (R80, R91): the new state and what the host is told. A refusal changes no state (R158). A step never
answers `.fault`; were it to, the fault would be taken. -/
def stepCommand (s : State) : State × StepResult :=
  match step s with
  | .next t => (t, .loop t.loop)
  | .fault k => (takeFault k s, .loop (.faulted k))
  | .refused r => (s, .refused r)

/-- What a model may return beside the loop state (R91, D30): the address, opcode byte and operand bytes of the
instruction that the step executed or faulted on. It is not architectural state. -/
structure StepReport where
  result : StepResult
  address : Nat
  /-- None where no opcode byte was fetched. -/
  opcode : Option Byte
  /-- The operand bytes that lie in memory, none after an invalid opcode. -/
  operands : List Byte
deriving DecidableEq, Repr

/-- The opcode byte and the operand bytes a step from `s` reads. -/
def fetchedBytes (s : State) : Option Byte × List Byte :=
  match s.loop, bytesAtPc s with
  | .running, b :: rest =>
    match decodeOpcode b with
    | none => (some b, [])
    | some m => (some b, rest.take m.operandCount)
  | _, _ => (none, [])

/-- The report of one step from `s` (R91). -/
def stepReport (s : State) : StepReport :=
  { result := (stepCommand s).2
    address := s.pc
    opcode := (fetchedBytes s).1
    operands := (fetchedBytes s).2 }

/-! ### run -/

/-- How a `run` ends (R166). -/
inductive RunEnd where
  /-- The normal terminal state. -/
  | halted
  /-- The abnormal terminal state. -/
  | faulted (k : Fault)
  /-- The budget is spent and the block is still Running; not a loop state (R157). -/
  | cycleBudgetExceeded
  /-- A step was refused: the run stops there (R158). -/
  | refused (r : Refusal)
deriving DecidableEq, Repr

/-- `run` with a cycle budget (R161): at most that many steps, the halting or faulting one counted; a block that is not
Running takes no step (R80, R92). -/
def runBudget : Nat → State → RunEnd × State
  | 0, s =>
    match s.loop with
    | .running => (.cycleBudgetExceeded, s)
    | .halted => (.halted, s)
    | .faulted k => (.faulted k, s)
  | n + 1, s =>
    match s.loop with
    | .running =>
      match stepCommand s with
      | (t, .loop _) => runBudget n t
      | (t, .refused r) => (.refused r, t)
    | .halted => (.halted, s)
    | .faulted k => (.faulted k, s)

/-- `run` with an optional budget, as the relation "the run from `s` ends as `e` in `t`" (R92, R161). Without a budget a
run need not end (70_reset_and_hazards.md R186): it ends where some budget is enough to end it (log entry 8). -/
def RunEnds (budget : Option Nat) (s : State) (e : RunEnd) (t : State) : Prop :=
  match budget with
  | some n => runBudget n s = (e, t)
  | none => e ≠ .cycleBudgetExceeded ∧ ∃ n, runBudget n s = (e, t)

end Sys2Proof.Machine
end

