-- ==== Sys2Proof/Safety.lean ====
section
/-! DEFINITION. What holds in every state a block can reach, and which states those are: the block is constructed with
legal parameters, and then only steps and host commands change it (R18, R162). -/

namespace Sys2Proof.Machine

/-- The invariant of the block. -/
structure BlockInv (s : State) : Prop where
  /-- The parameters satisfy R7's constraints. -/
  cfgValid : s.cfg.Valid
  /-- Memory is in canonical form. -/
  memCanonical : Memory.wf s.mem
  /-- No cell exists at or past MEM_CAPACITY (R36, R40). -/
  memInRange : ∀ c ∈ s.mem, c.1 < s.cfg.memCapacity
  /-- FL has at most one bit set (R32). -/
  flAtMostOne : FlagBits.atMostOne s.fl
  /-- pc never passes 256 (R26): a target is a byte value, and an advance ends at most at MEM_CAPACITY. Nothing is said
  of the pc after HLT (93_implementation_defined.md U4). -/
  pcBound : s.loop ≠ .halted → s.pc ≤ 256
  /-- The kind of a Faulted loop state is one a step can raise (R33, R115). -/
  faultKind : s.loop ≠ .faulted .programTooLarge ∧ s.loop ≠ .faulted .unsupportedAluOperation

/-- The states a block can be in: construction (R180), steps, and the host commands of R159, R164, R165. A refused step
and a failed command change nothing. -/
inductive Reachable : State → Prop where
  | construct (c : Config) (h : c.Valid) : Reachable (State.construct c)
  | step {s t : State} (hs : Reachable s) (h : step s = .next t) : Reachable t
  | load {s t : State} (bytes : List Byte) (hs : Reachable s) (h : load bytes s = .ok t) : Reachable t
  | memoryWrite {s t : State} (a : Nat) (v : Byte) (hs : Reachable s) (h : memoryWrite a v s = .ok t) : Reachable t
  | registerWrite {s t : State} (idx : Nat) (v : Byte) (hs : Reachable s) (h : registerWrite idx v s = .ok t) :
      Reachable t

/-- A safe step: it answers a next state that is not Faulted. -/
def SafeStep (s : State) : Prop := ∃ t, step s = .next t ∧ ∀ k, t.loop ≠ .faulted k

end Sys2Proof.Machine
end

