-- ==== Sys2Proof/WellFormed.lean ====
section
/-! DEFINITION. Which instructions have only valid operands (30_encoding.md R68, R72): every register operand below 8.
An instruction that is not well formed still decodes; executing it raises OutOfBoundsAccess (00_scope.md R12). -/

namespace Sys2Proof

/-- R68: "register index `0 ≤ r < 8`". -/
def validReg (b : Byte) : Bool := b.toNat < 8

/-- Every register operand of the instruction names a register; an immediate takes every value (R69, R72). -/
def Instr.wellFormed : Instr → Bool
  | .hlt | .ret => true
  | .push r | .pop r | .prn r | .call r | .jmp r | .jeq r | .jne r | .not r => validReg r
  | .ldi r _ => validReg r
  | .add a b | .sub a b | .mul a b | .div a b | .mod a b | .cmp a b
  | .and a b | .or a b | .xor a b | .shl a b | .shr a b => validReg a && validReg b

/-- `wellFormed` as a decidable proposition. -/
abbrev Instr.WellFormed (i : Instr) : Prop := i.wellFormed = true

end Sys2Proof
end

