-- ==== Sys2Proof/Certificates/Slice0/Obligations.lean ====
section
/-! DEFINITION. The statements for the provers. Results are written with the spec's own arithmetic on naturals and
integers, next states in full, so an equation `exec i s = .next …` says at once that the instruction completes, what it
writes and that every other register, flag, memory byte, output value and parameter is unchanged. Parameters are not
fixed: each statement holds for every `s.cfg` it does not restrict. -/

namespace Sys2Proof.Claims

open Sys2Proof.Machine

/-- The state `s` with the loop state `Faulted(k)` and nothing else changed (R13, R151). -/
def faultedIn (s : State) (k : Fault) : State := { s with loop := .faulted k }

/-- Executing `i` in `s` raises `k`: the next state is `s` with the loop state `Faulted(k)`. -/
def Faults (i : Instr) (s : State) (k : Fault) : Prop := exec i s = .next (faultedIn s k)

/-- The bytes of `i` lie in memory at pc, pc + 1, pc + 2. -/
def InstrAtPc (i : Instr) (s : State) : Prop :=
  ∀ n b, (encode i)[n]? = some b → s.pc + n < s.cfg.memCapacity ∧ Memory.read s.mem (s.pc + n) = b

/-- Memory `m'` is memory `m` with `v` stored at address `a`: every other address reads as before. -/
def StoredAt (m m' : Memory) (a : Nat) (v : Byte) : Prop :=
  Memory.read m' a = v ∧ ∀ a', a' ≠ a → Memory.read m' a' = Memory.read m a'

/-- The rule of a two-register instruction that writes `f (x[a]) (x[b])` to `x[a]`: its three bytes decode to it, it
completes for every pair of registers with no other register, flag, memory byte or output touched and pc advanced by 3,
and an operand byte of 8 or more in either place raises OutOfBoundsAccess. -/
def TwoRegister (opcode : Byte) (mk : Byte → Byte → Instr) (f : Nat → Nat → Nat) : Prop :=
  (∀ a b rest, decode (opcode :: a :: b :: rest) = .ok (mk a b, rest)) ∧
  (∀ (s : State) (a b : RegIndex), exec (mk (regByte a) (regByte b)) s =
    .next { s with
      regs := s.regs.set a (BitVec.ofNat 8 (f (s.reg a).toNat (s.reg b).toNat)), pc := s.pc + 3 }) ∧
  (∀ (s : State) (a b : Byte), 8 ≤ a.toNat ∨ 8 ≤ b.toNat → Faults (mk a b) s .outOfBoundsAccess)

/-- The rule of DIV and MOD: as `TwoRegister`, but only for a divisor other than 0; a divisor of 0 raises
DivisionByZero, and the index checks come first. -/
def TwoRegisterDivide (opcode : Byte) (mk : Byte → Byte → Instr) (f : Nat → Nat → Nat) : Prop :=
  (∀ a b rest, decode (opcode :: a :: b :: rest) = .ok (mk a b, rest)) ∧
  (∀ (s : State) (a b : RegIndex), s.reg b ≠ 0 → exec (mk (regByte a) (regByte b)) s =
    .next { s with
      regs := s.regs.set a (BitVec.ofNat 8 (f (s.reg a).toNat (s.reg b).toNat)), pc := s.pc + 3 }) ∧
  (∀ (s : State) (a b : RegIndex), s.reg b = 0 → Faults (mk (regByte a) (regByte b)) s .divisionByZero) ∧
  (∀ (s : State) (a b : Byte), 8 ≤ a.toNat ∨ 8 ≤ b.toNat → Faults (mk a b) s .outOfBoundsAccess)

/-- R71's list of illegal opcode bytes. -/
def IllegalOpcode (b : Byte) : Prop :=
  let n := b.toNat
  n = 0x00 ∨ (0x02 ≤ n ∧ n ≤ 0x10) ∨ (0x12 ≤ n ∧ n ≤ 0x44) ∨ (0x48 ≤ n ∧ n ≤ 0x4F) ∨ (0x51 ≤ n ∧ n ≤ 0x53) ∨
  (0x57 ≤ n ∧ n ≤ 0x68) ∨ (0x6A ≤ n ∧ n ≤ 0x81) ∨ (0x83 ≤ n ∧ n ≤ 0x9F) ∨ n = 0xA5 ∨ n = 0xA6 ∨ n = 0xA9 ∨ 0xAE ≤ n

/-- R66's table: byte, mnemonic, operand count, control-flow class. -/
def opcodeMap : List (Byte × Mnemonic × Nat × Bool) :=
  [(0x01, .hlt, 0, false), (0x11, .ret, 0, true), (0x45, .push, 1, false), (0x46, .pop, 1, false),
   (0x47, .prn, 1, false), (0x50, .call, 1, true), (0x54, .jmp, 1, true), (0x55, .jeq, 1, true),
   (0x56, .jne, 1, true), (0x69, .not, 1, false), (0x82, .ldi, 2, false)] ++
  [(0xA0, .add, 2, false), (0xA1, .sub, 2, false), (0xA2, .mul, 2, false), (0xA3, .div, 2, false),
   (0xA4, .mod, 2, false), (0xA7, .cmp, 2, false), (0xA8, .and, 2, false), (0xAA, .or, 2, false),
   (0xAB, .xor, 2, false), (0xAC, .shl, 2, false), (0xAD, .shr, 2, false)]

/-- R23: the registers an instruction writes. -/
def WritesRegister (i : Instr) (q : RegIndex) : Prop :=
  match i with
  | .ldi r _ | .not r => r = regByte q
  | .add a _ | .sub a _ | .mul a _ | .div a _ | .mod a _ | .and a _ | .or a _ | .xor a _ | .shl a _ | .shr a _ =>
    a = regByte q
  | .pop r => r = regByte q ∨ q = 7
  | .push _ | .call _ | .ret => q = 7
  | .cmp _ _ | .prn _ | .jmp _ | .jeq _ | .jne _ | .hlt => False

/-- The address an instruction stores to: PUSH and CALL store one byte at SP - 1 (R120), nothing else stores. -/
def StoreAddress (i : Instr) (s : State) (a : Nat) : Prop :=
  match i with
  | .push _ | .call _ => a = s.sp.toNat - 1
  | .hlt | .ret | .pop _ | .prn _ | .jmp _ | .jeq _ | .jne _ | .not _ | .ldi _ _ => False
  | .add _ _ | .sub _ _ | .mul _ _ | .div _ _ | .mod _ _ | .cmp _ _ => False
  | .and _ _ | .or _ _ | .xor _ _ | .shl _ _ | .shr _ _ => False

/-- When an instruction with valid operands completes: DIV and MOD need a divisor other than 0 (R105, R106), PUSH and
CALL need room (R120) and CALL a return address that fits a byte (R130), POP and RET need an item (R121), and R7 as
the operand of PUSH, POP or CALL needs the policy `Sequential` (R122). -/
def CompletesNormally (i : Instr) (s : State) : Prop :=
  match i with
  | .div _ b | .mod _ b => ∀ q : RegIndex, b = regByte q → s.reg q ≠ 0
  | .push r => (r = 7 → s.cfg.spPolicy = .sequential) ∧ s.sp ≠ 0 ∧ s.sp.toNat - 1 < s.cfg.memCapacity
  | .call r => (r = 7 → s.cfg.spPolicy = .sequential) ∧ s.pc + 2 ≤ 255 ∧ s.sp ≠ 0 ∧
      s.sp.toNat - 1 < s.cfg.memCapacity
  | .pop r => (r = 7 → s.cfg.spPolicy = .sequential) ∧ s.sp.toNat < s.cfg.stackTop
  | .ret => s.sp.toNat < s.cfg.stackTop
  | .hlt | .prn _ | .jmp _ | .jeq _ | .jne _ | .not _ | .ldi _ _ => True
  | .add _ _ | .sub _ _ | .mul _ _ | .cmp _ _ | .and _ _ | .or _ _ | .xor _ _ | .shl _ _ | .shr _ _ => True

/-- R150's causes, for a Running state whose step raises `k`. -/
def CausedBy (s : State) (k : Fault) : Prop :=
  match k with
  | .invalidOpcode => s.pc < s.cfg.memCapacity ∧ IllegalOpcode (Memory.read s.mem s.pc)
  | .outOfBoundsAccess =>
    s.cfg.memCapacity ≤ s.pc ∨
    (∃ m n, decodeOpcode (Memory.read s.mem s.pc) = some m ∧ 1 ≤ n ∧ n ≤ m.operandCount ∧
      s.cfg.memCapacity ≤ s.pc + n) ∨
    (∃ i, InstrAtPc i s ∧
      (¬ i.WellFormed ∨
       (∃ r, i = .call r ∧ 255 < s.pc + 2) ∨
       ((∃ r, i = .push r ∨ i = .call r) ∧ s.sp ≠ 0 ∧ s.cfg.memCapacity ≤ s.sp.toNat - 1) ∨
       ((i = .ret ∨ ∃ r, i = .pop r) ∧ s.cfg.memCapacity ≤ s.sp.toNat)))
  | .divisionByZero => ∃ a b : RegIndex,
      (InstrAtPc (.div (regByte a) (regByte b)) s ∨ InstrAtPc (.mod (regByte a) (regByte b)) s) ∧ s.reg b = 0
  | .stackOverflow => (∃ r, InstrAtPc (.push r) s ∨ InstrAtPc (.call r) s) ∧ s.sp = 0
  | .stackUnderflow => (InstrAtPc .ret s ∨ ∃ r, InstrAtPc (.pop r) s) ∧ s.cfg.stackTop ≤ s.sp.toNat
  | .unsupportedAluOperation | .programTooLarge => False

/-- An outcome with FL replaced in its next state. -/
def withFl (f : FlagBits) : Host.Outcome State Fault Refusal → Host.Outcome State Fault Refusal
  | .next t => .next { t with fl := f }
  | o => o

/-- An outcome with memory replaced in its next state. -/
def withMem (m : Memory) : Host.Outcome State Fault Refusal → Host.Outcome State Fault Refusal
  | .next t => .next { t with mem := m }
  | o => o

/-- 60_exceptions.md R152, items 4 to 7: the fault of an instruction whose bytes have been read, the first that applies. -/
def firstFault (i : Instr) (s : State) : Option Fault :=
  if i.wellFormed = false then some .outOfBoundsAccess
  else
    match i with
    | .call _ =>
      if 255 < s.pc + 2 then some .outOfBoundsAccess
      else if s.sp = 0 then some .stackOverflow
      else if s.cfg.memCapacity ≤ s.sp.toNat - 1 then some .outOfBoundsAccess else none
    | .push _ =>
      if s.sp = 0 then some .stackOverflow
      else if s.cfg.memCapacity ≤ s.sp.toNat - 1 then some .outOfBoundsAccess else none
    | .pop _ | .ret => if s.cfg.stackTop ≤ s.sp.toNat then some .stackUnderflow else none
    | .div _ b | .mod _ b => if s.regs[b.toNat]? = some 0 then some .divisionByZero else none
    | .hlt | .prn _ | .jmp _ | .jeq _ | .jne _ | .not _ | .ldi _ _ => none
    | .add _ _ | .sub _ _ | .mul _ _ | .cmp _ _ | .and _ _ | .or _ _ | .xor _ _ | .shl _ _ | .shr _ _ => none

/-- PUSH R7, POP R7 or CALL R7 (R122). -/
def SpOperandForm (i : Instr) : Prop := i = .push 7 ∨ i = .pop 7 ∨ i = .call 7

end Sys2Proof.Claims

open Sys2Proof Sys2Proof.Machine Sys2Proof.Claims

/-! ### Construction and the invariant -/

/-- 10_state.md R39 (and R28, R36): the state after construction, for every choice of the parameters, and the defaults
of the state after reset; `load` is not a reset. -/
def Obligations.ConstructionGivesTheResetTable : Prop :=
  (∀ c : Config,
    (∀ r : RegIndex, (State.construct c).reg r = 0) ∧
    (State.construct c).pc = 0 ∧
    (State.construct c).fl = c.flagsReset ∧
    (∀ a, a < c.memCapacity → memRead a (State.construct c) = .ok 0) ∧
    (∀ a, c.memCapacity ≤ a → memRead a (State.construct c) = .error .outOfBoundsAccess) ∧
    (State.construct c).loop = .running ∧
    (State.construct c).out = [] ∧
    (State.construct c).cfg = c) ∧
  State.reset = State.construct { memCapacity := 256, stackTop := 0xF4, flagsReset := 0b000, spPolicy := .refuse } ∧
  (∀ bytes s t, load bytes s = .ok t → t = { s with mem := t.mem })

/-- Every legally constructed block meets the invariant (R7, R26, R32, R33); the reset state is one of them. -/
def Obligations.ConstructionMeetsTheInvariant : Prop :=
  (∀ c : Config, c.Valid → BlockInv (State.construct c)) ∧ BlockInv State.reset

/-- Headline: the invariant (legal parameters, canonical memory inside MEM_CAPACITY, FL with at most one bit, pc at most
256 unless Halted, a fault kind a step can raise) is kept by a step from EVERY state that meets it. -/
def Obligations.EveryStepKeepsTheInvariant : Prop :=
  ∀ s t : State, BlockInv s → step s = .next t → BlockInv t

/-- The host commands that change the block keep the invariant. -/
def Obligations.HostCommandsKeepTheInvariant : Prop :=
  (∀ bytes s t, BlockInv s → load bytes s = .ok t → BlockInv t) ∧
  (∀ a v s t, BlockInv s → memoryWrite a v s = .ok t → BlockInv t) ∧
  (∀ idx v s t, BlockInv s → registerWrite idx v s = .ok t → BlockInv t)

/-- 10_state.md R32 and R26, R33: every state a block can be in, by any steps and host commands from any legal
construction, meets the invariant. -/
def Obligations.ReachableStatesMeetTheInvariant : Prop :=
  ∀ s : State, Reachable s → BlockInv s

/-! ### Encoding -/

/-- Headline: decoding an encoding gives the instruction back with every operand at every value, whatever bytes follow;
and only the encoding of an instruction decodes to it, so no two byte sequences name one instruction. -/
def Obligations.DecodeAndEncodeAgree : Prop :=
  (∀ (i : Instr) (rest : List Byte), decode (encode i ++ rest) = .ok (i, rest)) ∧
  (∀ (bytes rest : List Byte) (i : Instr), decode bytes = .ok (i, rest) → bytes = encode i ++ rest)

/-- 30_encoding.md R66: the 22 opcode bytes, their operand counts and classes, and no other byte; in every row bits 7-6
are the operand count and bit 4 the class. -/
def Obligations.OpcodeMapIsTheTable : Prop :=
  (∀ (b : Byte) (m : Mnemonic),
    decodeOpcode b = some m ↔ (b, m, m.operandCount, m.controlFlow) ∈ opcodeMap) ∧
  (∀ row ∈ opcodeMap, row.1.toNat / 64 = row.2.2.1 ∧ row.1.getLsbD 4 = row.2.2.2)

/-- Words written out from 30_encoding.md R65, R66, at least one per family, decode to their instructions. -/
def Obligations.SampleWordsDecode : Prop :=
  decode [0b10000010, 0b00000000, 0b00001000] = .ok (.ldi 0 8, []) ∧
  decode [0b10100000, 0b00000000, 0b00000001] = .ok (.add 0 1, []) ∧
  decode [0b10100111, 0b00000110, 0b00000110] = .ok (.cmp 6 6, []) ∧
  decode [0b01101001, 0b00000011] = .ok (.not 3, []) ∧
  decode [0b01000101, 0b00000000] = .ok (.push 0, []) ∧
  decode [0b01010000, 0b00000001] = .ok (.call 1, []) ∧
  decode [0b00010001] = .ok (.ret, []) ∧
  decode [0b01000111, 0b00000000] = .ok (.prn 0, []) ∧
  decode [0b00000001] = .ok (.hlt, [])

/-- 30_encoding.md R71, R62 and 40_dispatch.md R83: exactly the bytes of R71's list decode to no instruction, bits 7-6 =
11 among them, and a Running step with such a byte at pc, at the last address of memory too, is Faulted(InvalidOpcode)
with nothing else changed, no operand byte read and no further cycle. -/
def Obligations.IllegalOpcodesFault : Prop :=
  (∀ b : Byte, decodeOpcode b = none ↔ IllegalOpcode b) ∧
  (∀ b : Byte, b.toNat / 64 = 3 → decodeOpcode b = none) ∧
  (∀ s : State, s.loop = .running → s.pc < s.cfg.memCapacity → IllegalOpcode (Memory.read s.mem s.pc) →
    step s = .next (faultedIn s .invalidOpcode) ∧
    ∀ n, Host.Core.run core n (faultedIn s .invalidOpcode) = .next (faultedIn s .invalidOpcode))

/-- 30_encoding.md R73: the length of a legal instruction is 1 + byte[7:6], known from the opcode byte alone; an illegal
byte is rejected before any operand byte is looked at. -/
def Obligations.LengthIsInTheOpcodeByte : Prop :=
  (∀ (i : Instr) (b : Byte) (ops : List Byte), encode i = b :: ops →
    ops.length = b.toNat / 64 ∧ decodeOpcode b = some i.mnemonic) ∧
  (∀ (b : Byte) (rest : List Byte), decodeOpcode b = none → decode (b :: rest) = .error (.invalidOpcode b))

/-! ### Fetch, dispatch and the loop -/

/-- 40_dispatch.md R82: the opcode byte is the byte at pc; a fetch at pc ≥ MEM_CAPACITY raises OutOfBoundsAccess. -/
def Obligations.FetchPastMemoryFaults : Prop :=
  (∀ (s : State) (i : Instr), fetch s = .ok i → s.pc < s.cfg.memCapacity ∧
    decodeOpcode (Memory.read s.mem s.pc) = some i.mnemonic) ∧
  (∀ s : State, s.loop = .running → s.cfg.memCapacity ≤ s.pc → step s = .next (faultedIn s .outOfBoundsAccess))

/-- 40_dispatch.md R84: the operand bytes are the raw bytes at pc + 1, pc + 2, as many as the instruction declares; an
operand byte of a legal opcode that would lie past memory raises OutOfBoundsAccess; an index of 8 or more in an operand
byte that is in memory is no matter for this phase. -/
def Obligations.OperandReadPastMemoryFaults : Prop :=
  (∀ (s : State) (i : Instr), fetch s = .ok i ↔ InstrAtPc i s) ∧
  (∀ (s : State) (m : Mnemonic) (n : Nat), s.loop = .running → s.pc < s.cfg.memCapacity →
    decodeOpcode (Memory.read s.mem s.pc) = some m → 1 ≤ n → n ≤ m.operandCount → s.cfg.memCapacity ≤ s.pc + n →
    step s = .next (faultedIn s .outOfBoundsAccess))

/-- A step runs the decoded instruction: where the bytes of `i` lie in memory at pc, a Running step is `exec i`, which
adds the advance of pc (40_dispatch.md R87) itself; a step adds nothing around it. -/
def Obligations.StepRunsTheDecodedInstruction : Prop :=
  ∀ (s : State) (i : Instr), s.loop = .running → InstrAtPc i s → fetch s = .ok i ∧ step s = exec i s

/-- 40_dispatch.md R80: a step performs one cycle when Running and returns the new loop state; when Halted or Faulted it
changes nothing and returns the same state. -/
def Obligations.StepsOnlyWhenRunning : Prop :=
  (∀ s : State, s.loop = .running → step s = cycle s) ∧
  (∀ s t : State, step s = .next t → stepCommand s = (t, .loop t.loop)) ∧
  (∀ s : State, s.loop ≠ .running → step s = .next s ∧ stepCommand s = (s, .loop s.loop))

/-- 60_exceptions.md R154: no step, no run and no host command leaves Halted or Faulted. -/
def Obligations.TerminalStatesArePermanent : Prop :=
  ∀ s : State, s.loop ≠ .running →
    step s = .next s ∧
    (∀ n, (runBudget n s).2 = s) ∧
    (∀ bytes t, load bytes s = .ok t → t.loop = s.loop) ∧
    (∀ a v t, memoryWrite a v s = .ok t → t.loop = s.loop) ∧
    (∀ idx v t, registerWrite idx v s = .ok t → t.loop = s.loop)

/-- 40_dispatch.md R89, 60_exceptions.md R151: whatever the raise, in any phase and any instruction, nothing the cycle
wrote is kept: the state is as it was, pc at the faulting opcode byte, with the loop state Faulted(kind), which step and
run return. -/
def Obligations.FaultsArePrecise : Prop :=
  ∀ (s t : State) (k : Fault), s.loop = .running → step s = .next t → t.loop = .faulted k →
    t = faultedIn s k ∧ stepCommand s = (t, .loop (.faulted k)) ∧ ∀ n, runBudget (n + 1) s = (.faulted k, t)

/-- 60_exceptions.md R152: which fault a step reports when several apply: the fetch, the opcode, the operand bytes, then
the instruction's own checks in R152's order; and none of them applying, the step is not Faulted. (A refused form has
no fault, R158. The parameters are legal: item 7 has no POP or RET case because STACK_TOP ≤ MEM_CAPACITY.) -/
def Obligations.FirstFaultInOrderIsReported : Prop :=
  ∀ s : State, s.cfg.Valid → s.loop = .running →
    (s.cfg.memCapacity ≤ s.pc → step s = .next (faultedIn s .outOfBoundsAccess)) ∧
    (s.pc < s.cfg.memCapacity → decodeOpcode (Memory.read s.mem s.pc) = none →
      step s = .next (faultedIn s .invalidOpcode)) ∧
    (∀ m, s.pc < s.cfg.memCapacity → decodeOpcode (Memory.read s.mem s.pc) = some m →
      s.cfg.memCapacity ≤ s.pc + m.operandCount → step s = .next (faultedIn s .outOfBoundsAccess)) ∧
    (∀ i, InstrAtPc i s → ¬ (SpOperandForm i ∧ s.cfg.spPolicy = .refuse) →
      match firstFault i s with
      | some k => step s = .next (faultedIn s k)
      | none => SafeStep s)

/-- 60_exceptions.md R150, 41_alu.md R115: the codes, and the cause of every fault a step raises;
UnsupportedALUOperation and ProgramTooLarge are raised by no step; `load` fails with ProgramTooLarge only, the
accessors with OutOfBoundsAccess only. -/
def Obligations.FaultKindsHaveTheirCauses : Prop :=
  (List.map Fault.code [.invalidOpcode, .outOfBoundsAccess, .divisionByZero, .unsupportedAluOperation, .stackOverflow,
    .stackUnderflow, .programTooLarge] = [1, 2, 3, 4, 5, 6, 7]) ∧
  (∀ (s t : State) (k : Fault), s.loop = .running → step s = .next t → t.loop = .faulted k → CausedBy s k) ∧
  (∀ bytes s k, load bytes s = .error k → k = .programTooLarge ∧ s.cfg.memCapacity < bytes.length) ∧
  (∀ a s k, memoryRead a s = .error k → k = .outOfBoundsAccess ∧ s.cfg.memCapacity ≤ a) ∧
  (∀ a v s k, memoryWrite a v s = .error k → k = .outOfBoundsAccess ∧ s.cfg.memCapacity ≤ a) ∧
  (∀ idx s k, registerRead idx s = .error k → k = .outOfBoundsAccess ∧ 8 ≤ idx) ∧
  (∀ idx v s k, registerWrite idx v s = .error k → k = .outOfBoundsAccess ∧ 8 ≤ idx)

/-- From every state a step answers a next state, except that PUSH R7, POP R7 and CALL R7 are refused under
SP_OPERAND_POLICY = Refuse; a step never answers an outcome fault and never any other refusal. -/
def Obligations.StepsAreTotal : Prop :=
  ∀ s : State,
    (∃ t, step s = .next t) ∨
    (step s = .refused .spOperand ∧ s.loop = .running ∧ s.cfg.spPolicy = .refuse ∧
      (InstrAtPc (.push 7) s ∨ InstrAtPc (.pop 7) s ∨ InstrAtPc (.call 7) s))

/-- In a legally parametrised Running block with the bytes of `i` at pc, the step is safe (it answers a state
that is not Faulted) EXACTLY when every register operand is valid and the instruction's own condition holds. -/
def Obligations.SafeStepsAreExactlyThese : Prop :=
  ∀ (s : State) (i : Instr), s.cfg.Valid → s.loop = .running → InstrAtPc i s →
    (SafeStep s ↔ i.WellFormed ∧ CompletesNormally i s)

/-! ### ALU -/

/-- 41_alu.md R102. -/
def Obligations.AddWrapsModulo256 : Prop := TwoRegister 0xA0 .add fun x y => (x + y) % 256

/-- 41_alu.md R103: the difference is taken in the integers. -/
def Obligations.SubWrapsModulo256 : Prop := TwoRegister 0xA1 .sub fun x y => (((x : Int) - (y : Int)) % 256).toNat

/-- 41_alu.md R104. -/
def Obligations.MulKeepsTheLowByte : Prop := TwoRegister 0xA2 .mul fun x y => (x * y) % 256

/-- 41_alu.md R105. -/
def Obligations.DivIsTheUnsignedQuotient : Prop := TwoRegisterDivide 0xA3 .div fun x y => x / y

/-- 41_alu.md R106, with its law `y * (x div y) + (x mod y) = x` between the results of DIV and MOD. -/
def Obligations.ModIsTheUnsignedRemainder : Prop :=
  TwoRegisterDivide 0xA4 .mod (fun x y => x % y) ∧
  (∀ (s : State) (a b : RegIndex), s.reg b ≠ 0 → ∃ t u,
    exec (.div (regByte a) (regByte b)) s = .next t ∧ exec (.mod (regByte a) (regByte b)) s = .next u ∧
    (s.reg b).toNat * (t.reg a).toNat + (u.reg a).toNat = (s.reg a).toNat)

/-- 41_alu.md R107, bit by bit. -/
def Obligations.AndIsBitwise : Prop := TwoRegister 0xA8 .and fun x y => x &&& y

/-- 41_alu.md R108, bit by bit. -/
def Obligations.OrIsBitwise : Prop := TwoRegister 0xAA .or fun x y => x ||| y

/-- 41_alu.md R109, bit by bit. -/
def Obligations.XorIsBitwise : Prop := TwoRegister 0xAB .xor fun x y => x ^^^ y

/-- 41_alu.md R110: NOT has one operand byte and advances pc by 2. -/
def Obligations.NotIsTheComplement : Prop :=
  (∀ r rest, decode (0x69 :: r :: rest) = .ok (.not r, rest)) ∧
  (∀ (s : State) (r : RegIndex), exec (.not (regByte r)) s =
    .next { s with regs := s.regs.set r (BitVec.ofNat 8 (255 - (s.reg r).toNat)), pc := s.pc + 2 }) ∧
  (∀ (s : State) (r : Byte), 8 ≤ r.toNat → Faults (.not r) s .outOfBoundsAccess)

/-- 41_alu.md R111: the count is the whole 8-bit value. -/
def Obligations.ShlMultipliesByAPowerOfTwo : Prop := TwoRegister 0xAC .shl fun x y => (x * 2 ^ y) % 256

/-- 41_alu.md R112: the count is the whole 8-bit value. -/
def Obligations.ShrDividesByAPowerOfTwo : Prop := TwoRegister 0xAD .shr fun x y => x / 2 ^ y

/-- 41_alu.md R113, R114: CMP sets exactly one bit, the previous FL is lost, both registers stay. -/
def Obligations.CmpSetsExactlyOneFlag : Prop :=
  (∀ a b rest, decode (0xA7 :: a :: b :: rest) = .ok (.cmp a b, rest)) ∧
  (∀ (s : State) (a b : RegIndex), exec (.cmp (regByte a) (regByte b)) s =
    .next { s with
      fl := if (s.reg a).toNat = (s.reg b).toNat then 0b001
        else if (s.reg b).toNat < (s.reg a).toNat then 0b010 else 0b100,
      pc := s.pc + 3 }) ∧
  (∀ (s : State) (a b : Byte), 8 ≤ a.toNat ∨ 8 ≤ b.toNat → Faults (.cmp a b) s .outOfBoundsAccess)

/-! ### Stack -/

/-- 42_stack.md R123 (r = 7 is `SpOperandFormsFollowThePolicy`): the value goes to SP - 1, SP goes down by one; the
faults in R152's order. -/
def Obligations.PushStoresBelowTheStackPointer : Prop :=
  (∀ r rest, decode (0x45 :: r :: rest) = .ok (.push r, rest)) ∧
  (∀ (s : State) (r : RegIndex), r ≠ 7 → s.sp ≠ 0 → s.sp.toNat - 1 < s.cfg.memCapacity →
    ∃ m, StoredAt s.mem m (s.sp.toNat - 1) (s.reg r) ∧ exec (.push (regByte r)) s =
      .next { s with regs := s.regs.set 7 (BitVec.ofNat 8 (s.sp.toNat - 1)), mem := m, pc := s.pc + 2 }) ∧
  (∀ (s : State) (r : Byte), 8 ≤ r.toNat → Faults (.push r) s .outOfBoundsAccess) ∧
  (∀ (s : State) (r : RegIndex), r ≠ 7 → s.sp = 0 → Faults (.push (regByte r)) s .stackOverflow) ∧
  (∀ (s : State) (r : RegIndex), r ≠ 7 → s.sp ≠ 0 → s.cfg.memCapacity ≤ s.sp.toNat - 1 →
    Faults (.push (regByte r)) s .outOfBoundsAccess)

/-- 42_stack.md R124 (r = 7 is `SpOperandFormsFollowThePolicy`): the byte at SP goes to the register, SP goes up by one,
the cell keeps its value. The last clause is met only under illegal parameters, which the model covers by its own choice
(log entry 11): there the read faults as every access outside memory does (R121, 20_memory.md R43). -/
def Obligations.PopLoadsFromTheStackPointer : Prop :=
  (∀ r rest, decode (0x46 :: r :: rest) = .ok (.pop r, rest)) ∧
  (∀ (s : State) (r : RegIndex), r ≠ 7 → s.sp.toNat < s.cfg.stackTop → s.sp.toNat < s.cfg.memCapacity →
    exec (.pop (regByte r)) s = .next { s with
      regs := (s.regs.set 7 (BitVec.ofNat 8 (s.sp.toNat + 1))).set r (Memory.read s.mem s.sp.toNat),
      pc := s.pc + 2 }) ∧
  (∀ (s : State) (r : Byte), 8 ≤ r.toNat → Faults (.pop r) s .outOfBoundsAccess) ∧
  (∀ (s : State) (r : RegIndex), r ≠ 7 → s.cfg.stackTop ≤ s.sp.toNat →
    Faults (.pop (regByte r)) s .stackUnderflow) ∧
  (∀ (s : State) (r : RegIndex), r ≠ 7 → s.sp.toNat < s.cfg.stackTop → s.cfg.memCapacity ≤ s.sp.toNat →
    Faults (.pop (regByte r)) s .outOfBoundsAccess)

/-- 42_stack.md R122: under `Refuse` the three forms are refused; under `Sequential` PUSH R7 stores the decremented SP,
POP R7 loads R7 and increments it modulo 256, CALL R7 jumps to the decremented SP, each with the faults of its checks;
every other instruction treats R7 as an ordinary register and is never refused. That the refusal comes before the faults
of the form's own checks is DEDUCED from R158 (log entry 3). POP R7's clause for a byte outside memory is met only under
illegal parameters, which the model covers by its own choice (log entry 11; R121, 20_memory.md R43). -/
def Obligations.SpOperandFormsFollowThePolicy : Prop :=
  (∀ s : State, s.cfg.spPolicy = .refuse →
    exec (.push 7) s = .refused .spOperand ∧ exec (.pop 7) s = .refused .spOperand ∧
    exec (.call 7) s = .refused .spOperand) ∧
  (∀ s : State, s.cfg.spPolicy = .sequential →
    (s.sp ≠ 0 → s.sp.toNat - 1 < s.cfg.memCapacity →
      ∃ m, StoredAt s.mem m (s.sp.toNat - 1) (BitVec.ofNat 8 (s.sp.toNat - 1)) ∧ exec (.push 7) s =
        .next { s with regs := s.regs.set 7 (BitVec.ofNat 8 (s.sp.toNat - 1)), mem := m, pc := s.pc + 2 }) ∧
    (s.sp = 0 → Faults (.push 7) s .stackOverflow) ∧
    (s.sp ≠ 0 → s.cfg.memCapacity ≤ s.sp.toNat - 1 → Faults (.push 7) s .outOfBoundsAccess)) ∧
  (∀ s : State, s.cfg.spPolicy = .sequential →
    (s.sp.toNat < s.cfg.stackTop → s.sp.toNat < s.cfg.memCapacity → exec (.pop 7) s =
      .next { s with
        regs := s.regs.set 7 (BitVec.ofNat 8 (((Memory.read s.mem s.sp.toNat).toNat + 1) % 256)), pc := s.pc + 2 }) ∧
    (s.cfg.stackTop ≤ s.sp.toNat → Faults (.pop 7) s .stackUnderflow) ∧
    (s.sp.toNat < s.cfg.stackTop → s.cfg.memCapacity ≤ s.sp.toNat → Faults (.pop 7) s .outOfBoundsAccess)) ∧
  (∀ s : State, s.cfg.spPolicy = .sequential →
    (s.pc + 2 ≤ 255 → s.sp ≠ 0 → s.sp.toNat - 1 < s.cfg.memCapacity →
      ∃ m, StoredAt s.mem m (s.sp.toNat - 1) (BitVec.ofNat 8 (s.pc + 2)) ∧ exec (.call 7) s =
        .next { s with regs := s.regs.set 7 (BitVec.ofNat 8 (s.sp.toNat - 1)), mem := m, pc := s.sp.toNat - 1 }) ∧
    (255 < s.pc + 2 → Faults (.call 7) s .outOfBoundsAccess) ∧
    (s.pc + 2 ≤ 255 → s.sp = 0 → Faults (.call 7) s .stackOverflow) ∧
    (s.pc + 2 ≤ 255 → s.sp ≠ 0 → s.cfg.memCapacity ≤ s.sp.toNat - 1 → Faults (.call 7) s .outOfBoundsAccess)) ∧
  (∀ (i : Instr) (s : State), i ≠ .push 7 → i ≠ .pop 7 → i ≠ .call 7 → ∃ t, exec i s = .next t)

/-- 60_exceptions.md R158: under `Refuse` a Running step on PUSH R7, POP R7 or CALL R7 returns Refused(SpOperand) and
changes no state, and a run stops at it, whatever budget is left. -/
def Obligations.RefusalChangesNoState : Prop :=
  ∀ (s : State) (i : Instr), SpOperandForm i → s.loop = .running → s.cfg.spPolicy = .refuse → InstrAtPc i s →
    step s = .refused .spOperand ∧ stepCommand s = (s, .refused .spOperand) ∧
    ∀ n, runBudget (n + 1) s = (.refused .spOperand, s)

/-- 42_stack.md, the round trip of PUSH and POP: with 1 ≤ SP ≤ STACK_TOP both complete and the register and SP are as
before; with SP = 0 the PUSH overflows; with SP above STACK_TOP the POP after a completed PUSH underflows. -/
def Obligations.PushThenPopRestores : Prop :=
  ∀ (s : State) (r : RegIndex), r ≠ 7 → s.cfg.Valid →
    (1 ≤ s.sp.toNat → s.sp.toNat ≤ s.cfg.stackTop → ∃ t u,
      exec (.push (regByte r)) s = .next t ∧ exec (.pop (regByte r)) t = .next u ∧
      u.regs = s.regs ∧ u.pc = s.pc + 4 ∧ u.fl = s.fl ∧ u.loop = s.loop ∧ u.out = s.out ∧
      StoredAt s.mem u.mem (s.sp.toNat - 1) (s.reg r)) ∧
    (s.sp = 0 → Faults (.push (regByte r)) s .stackOverflow) ∧
    (s.cfg.stackTop < s.sp.toNat → s.sp.toNat ≤ s.cfg.memCapacity → ∃ t,
      exec (.push (regByte r)) s = .next t ∧ Faults (.pop (regByte r)) t .stackUnderflow)

/-! ### Control flow -/

/-- 43_control_flow.md R130 (r = 7 is `SpOperandFormsFollowThePolicy`): CALL pushes pc + 2 and jumps to x[r], unchecked;
the faults in R152's order. -/
def Obligations.CallPushesTheReturnAddress : Prop :=
  (∀ r rest, decode (0x50 :: r :: rest) = .ok (.call r, rest)) ∧
  (∀ (s : State) (r : RegIndex), r ≠ 7 → s.pc + 2 ≤ 255 → s.sp ≠ 0 → s.sp.toNat - 1 < s.cfg.memCapacity →
    ∃ m, StoredAt s.mem m (s.sp.toNat - 1) (BitVec.ofNat 8 (s.pc + 2)) ∧ exec (.call (regByte r)) s =
      .next { s with
        regs := s.regs.set 7 (BitVec.ofNat 8 (s.sp.toNat - 1)), mem := m, pc := (s.reg r).toNat }) ∧
  (∀ (s : State) (r : Byte), 8 ≤ r.toNat → Faults (.call r) s .outOfBoundsAccess) ∧
  (∀ (s : State) (r : RegIndex), r ≠ 7 → 255 < s.pc + 2 → Faults (.call (regByte r)) s .outOfBoundsAccess) ∧
  (∀ (s : State) (r : RegIndex), r ≠ 7 → s.pc + 2 ≤ 255 → s.sp = 0 →
    Faults (.call (regByte r)) s .stackOverflow) ∧
  (∀ (s : State) (r : RegIndex), r ≠ 7 → s.pc + 2 ≤ 255 → s.sp ≠ 0 → s.cfg.memCapacity ≤ s.sp.toNat - 1 →
    Faults (.call (regByte r)) s .outOfBoundsAccess)

/-- 43_control_flow.md R131: RET pops whatever byte is on top of the stack into pc. The last clause is met only under
illegal parameters, which the model covers by its own choice (log entry 11): there the read faults as every access
outside memory does (42_stack.md R121, 20_memory.md R43). -/
def Obligations.RetPopsThePc : Prop :=
  (∀ rest, decode (0x11 :: rest) = .ok (.ret, rest)) ∧
  (∀ s : State, s.sp.toNat < s.cfg.stackTop → s.sp.toNat < s.cfg.memCapacity → exec .ret s =
    .next { s with
      regs := s.regs.set 7 (BitVec.ofNat 8 (s.sp.toNat + 1)), pc := (Memory.read s.mem s.sp.toNat).toNat }) ∧
  (∀ s : State, s.cfg.stackTop ≤ s.sp.toNat → Faults .ret s .stackUnderflow) ∧
  (∀ s : State, s.sp.toNat < s.cfg.stackTop → s.cfg.memCapacity ≤ s.sp.toNat → Faults .ret s .outOfBoundsAccess)

/-- 43_control_flow.md R132: every register, R7 included, gives the target; FL is not read; a JMP to its own address
loops forever, so a run with any budget spends it and is where it was. -/
def Obligations.JmpGoesToTheRegister : Prop :=
  (∀ r rest, decode (0x54 :: r :: rest) = .ok (.jmp r, rest)) ∧
  (∀ (s : State) (r : RegIndex), exec (.jmp (regByte r)) s = .next { s with pc := (s.reg r).toNat }) ∧
  (∀ (s : State) (r : Byte), 8 ≤ r.toNat → Faults (.jmp r) s .outOfBoundsAccess) ∧
  (∀ (s : State) (r : RegIndex) (n : Nat), s.loop = .running → InstrAtPc (.jmp (regByte r)) s →
    (s.reg r).toNat = s.pc → runBudget n s = (.cycleBudgetExceeded, s))

/-- 43_control_flow.md R133: bit E alone decides; the index is checked whether or not the branch is taken. -/
def Obligations.JeqTestsTheEqualBit : Prop :=
  (∀ r rest, decode (0x55 :: r :: rest) = .ok (.jeq r, rest)) ∧
  (∀ (s : State) (r : RegIndex), exec (.jeq (regByte r)) s =
    .next { s with pc := if s.fl.getLsbD 0 = true then (s.reg r).toNat else s.pc + 2 }) ∧
  (∀ (s : State) (r : Byte), 8 ≤ r.toNat → Faults (.jeq r) s .outOfBoundsAccess)

/-- 43_control_flow.md R134. -/
def Obligations.JneTestsTheEqualBit : Prop :=
  (∀ r rest, decode (0x56 :: r :: rest) = .ok (.jne r, rest)) ∧
  (∀ (s : State) (r : RegIndex), exec (.jne (regByte r)) s =
    .next { s with pc := if s.fl.getLsbD 0 = false then (s.reg r).toNat else s.pc + 2 }) ∧
  (∀ (s : State) (r : Byte), 8 ≤ r.toNat → Faults (.jne r) s .outOfBoundsAccess)

/-- 43_control_flow.md, the call and return law: a RET in any later state `u` of the block whose SP and whose byte at SP
are as the CALL at `s.pc` left them sets pc to `s.pc + 2` and SP to its value before the CALL. -/
def Obligations.CallThenRetReturns : Prop :=
  ∀ (s u : State) (r : RegIndex), s.cfg.Valid → r ≠ 7 → s.pc + 2 ≤ 255 → 1 ≤ s.sp.toNat →
    s.sp.toNat ≤ s.cfg.stackTop → ∃ t, exec (.call (regByte r)) s = .next t ∧
      (u.cfg = t.cfg → u.sp = t.sp → Memory.read u.mem u.sp.toNat = Memory.read t.mem t.sp.toNat →
        exec .ret u = .next { u with regs := u.regs.set 7 s.sp, pc := s.pc + 2 })

/-! ### Load, print, halt -/

/-- 44_load_print_halt.md R140: every immediate value, every register, R7 included. -/
def Obligations.LdiWritesTheImmediate : Prop :=
  (∀ r imm rest, decode (0x82 :: r :: imm :: rest) = .ok (.ldi r imm, rest)) ∧
  (∀ (s : State) (r : RegIndex) (imm : Byte), exec (.ldi (regByte r) imm) s =
    .next { s with regs := s.regs.set r imm, pc := s.pc + 3 }) ∧
  (∀ (s : State) (r imm : Byte), 8 ≤ r.toNat → Faults (.ldi r imm) s .outOfBoundsAccess)

/-- 44_load_print_halt.md R141: one value appended to the output, nothing else written. -/
def Obligations.PrnEmitsTheRegister : Prop :=
  (∀ r rest, decode (0x47 :: r :: rest) = .ok (.prn r, rest)) ∧
  (∀ (s : State) (r : RegIndex), exec (.prn (regByte r)) s =
    .next { s with out := s.out ++ [s.reg r], pc := s.pc + 2 }) ∧
  (∀ (s : State) (r : Byte), 8 ≤ r.toNat → Faults (.prn r) s .outOfBoundsAccess)

/-- HLT makes the loop state Halted and keeps registers, FL, memory and output. No claim reads the pc after HLT
(91_not_in_source.md N15, 93_implementation_defined.md U4), so it is whatever it is here. -/
def Obligations.HltHalts : Prop :=
  (∀ rest, decode (0x01 :: rest) = .ok (.hlt, rest)) ∧
  (∀ s : State, ∃ pc', exec .hlt s = .next { s with loop := .halted, pc := pc' })

/-! ### Whole-machine rules and frames -/

/-- 10_state.md R30: FL is written only by CMP, not by any other instruction, step or host command; it is read only by
JEQ and JNE, which test bit E. -/
def Obligations.FlagsBelongToCmpJeqJne : Prop :=
  (∀ (i : Instr) (s t : State), exec i s = .next t → (∀ a b, i ≠ .cmp a b) → t.fl = s.fl) ∧
  (∀ bytes s t, load bytes s = .ok t → t.fl = s.fl) ∧
  (∀ a v s t, memoryWrite a v s = .ok t → t.fl = s.fl) ∧
  (∀ idx v s t, registerWrite idx v s = .ok t → t.fl = s.fl) ∧
  (∀ (i : Instr) (s : State) (f : FlagBits), (∀ a b, i ≠ .cmp a b) → (∀ r, i ≠ .jeq r) → (∀ r, i ≠ .jne r) →
    exec i { s with fl := f } = withFl f (exec i s)) ∧
  (∀ (s : State) (f : FlagBits) (a b : RegIndex),
    exec (.cmp (regByte a) (regByte b)) { s with fl := f } = exec (.cmp (regByte a) (regByte b)) s) ∧
  (∀ (s : State) (f : FlagBits) (r : Byte), f.getLsbD 0 = s.fl.getLsbD 0 →
    exec (.jeq r) { s with fl := f } = withFl f (exec (.jeq r) s) ∧
    exec (.jne r) { s with fl := f } = withFl f (exec (.jne r) s))

/-- 10_state.md R37: the output is empty after construction and is only appended to, by one value per PRN that
completes: a PRN of a valid register, executed or stepped, always appends x[r], and nothing else appends. -/
def Obligations.OutputGrowsOnlyByPrn : Prop :=
  (∀ c : Config, (State.construct c).out = []) ∧
  (∀ (i : Instr) (s t : State), exec i s = .next t →
    t.out = s.out ∨ ∃ r : RegIndex, i = .prn (regByte r) ∧ t.out = s.out ++ [s.reg r]) ∧
  (∀ (r : RegIndex) (s t : State), exec (.prn (regByte r)) s = .next t → t.out = s.out ++ [s.reg r]) ∧
  (∀ s t : State, step s = .next t → t.out = s.out ∨ ∃ r : RegIndex, InstrAtPc (.prn (regByte r)) s ∧
    t.out = s.out ++ [s.reg r]) ∧
  (∀ (r : RegIndex) (s t : State), s.loop = .running → InstrAtPc (.prn (regByte r)) s → step s = .next t →
    t.out = s.out ++ [s.reg r]) ∧
  (∀ bytes s t, load bytes s = .ok t → t.out = s.out) ∧
  (∀ a v s t, memoryWrite a v s = .ok t → t.out = s.out) ∧
  (∀ idx v s t, registerWrite idx v s = .ok t → t.out = s.out)

/-- The memory frame of every instruction (20_memory.md, what reaches memory): outside the address it stores to, which
only PUSH and CALL have, every byte reads as before; and only POP and RET read memory, the byte at SP. -/
def Obligations.OnlyTheStackTouchesMemory : Prop :=
  (∀ (i : Instr) (s t : State) (a : Nat), exec i s = .next t → ¬ StoreAddress i s a →
    Memory.read t.mem a = Memory.read s.mem a) ∧
  (∀ (i : Instr) (s : State) (m : Memory), (∀ r, i ≠ .push r) → (∀ r, i ≠ .call r) → (∀ r, i ≠ .pop r) → i ≠ .ret →
    exec i { s with mem := m } = withMem m (exec i s)) ∧
  (∀ (s : State) (m : Memory) (r : Byte), Memory.read m s.sp.toNat = Memory.read s.mem s.sp.toNat →
    exec (.pop r) { s with mem := m } = withMem m (exec (.pop r) s) ∧
    exec .ret { s with mem := m } = withMem m (exec .ret s))

/-- The register frame of every instruction (10_state.md, which instructions write which register): every register the
table does not name for it is unchanged, on every path, a fault's too. -/
def Obligations.RegistersWrittenAreTheNamedOnes : Prop :=
  ∀ (i : Instr) (s t : State) (q : RegIndex), exec i s = .next t → ¬ WritesRegister i q → t.reg q = s.reg q

/-- The loop state and the parameters: an instruction leaves the loop state, or halts (HLT only), or faults with nothing
else changed; no step and no host command changes the parameters. -/
def Obligations.LoopStateAndParametersFrame : Prop :=
  (∀ (i : Instr) (s t : State), exec i s = .next t →
    t.loop = s.loop ∨ (i = .hlt ∧ t.loop = .halted) ∨ ∃ k, t = faultedIn s k) ∧
  (∀ s t : State, step s = .next t → t.cfg = s.cfg) ∧
  (∀ bytes s t, load bytes s = .ok t → t.cfg = s.cfg) ∧
  (∀ a v s t, memoryWrite a v s = .ok t → t.cfg = s.cfg) ∧
  (∀ idx v s t, registerWrite idx v s = .ok t → t.cfg = s.cfg)

/-- 40_dispatch.md R87: after a step that leaves the block Running, an instruction that is not control-flow-class has
advanced pc by 1 + operand count, and a control-flow instruction has set pc to an absolute target (a byte value) or,
for a branch not taken, to pc + 1 + operand count; an advance past the end of memory is detected by the next fetch. -/
def Obligations.PcAdvanceRule : Prop :=
  ∀ (s t : State) (i : Instr), s.loop = .running → InstrAtPc i s → step s = .next t → t.loop = .running →
    (i.mnemonic.controlFlow = false → t.pc = s.pc + 1 + i.mnemonic.operandCount) ∧
    (i.mnemonic.controlFlow = true →
      (∃ v : Byte, t.pc = v.toNat) ∨
      (((∃ r, i = .jeq r) ∨ (∃ r, i = .jne r)) ∧ t.pc = s.pc + 1 + i.mnemonic.operandCount)) ∧
    (t.cfg.memCapacity ≤ t.pc → step t = .next (faultedIn t .outOfBoundsAccess))

/-! ### Memory, operands, host interface -/

/-- 00_scope.md R11: MemRead and MemWrite of one byte, in range and out of range. -/
def Obligations.MemoryAccessIsBoundsChecked : Prop :=
  (∀ (s : State) (a : Nat), a < s.cfg.memCapacity → memRead a s = .ok (Memory.read s.mem a)) ∧
  (∀ (s : State) (a : Nat), s.cfg.memCapacity ≤ a → memRead a s = .error .outOfBoundsAccess) ∧
  (∀ (s : State) (a : Nat) (v : Byte), a < s.cfg.memCapacity →
    ∃ m, StoredAt s.mem m a v ∧ memWrite a v s = .ok { s with mem := m }) ∧
  (∀ (s : State) (a : Nat) (v : Byte), s.cfg.memCapacity ≤ a → memWrite a v s = .error .outOfBoundsAccess)

/-- 00_scope.md R12, 30_encoding.md R68: a register operand byte is the index itself, read whole; an instruction with a
register operand of 8 or more, in any place and in any state, raises OutOfBoundsAccess. -/
def Obligations.RegisterOperandsAreChecked : Prop :=
  (∀ r : RegIndex, (regByte r).toNat = r.val ∧ regIndex (regByte r) = .ok r) ∧
  (∀ b : Byte, 8 ≤ b.toNat → regIndex b = .error .outOfBoundsAccess) ∧
  (∀ (i : Instr) (s : State), ¬ i.WellFormed → Faults i s .outOfBoundsAccess)

/-- 60_exceptions.md R159, R160: `load` copies all of the bytes to address 0 up and changes nothing else, or fails with
ProgramTooLarge; exactly MEM_CAPACITY bytes load. -/
def Obligations.LoadIsAllOrNothing : Prop :=
  (∀ (bytes : List Byte) (s : State), bytes.length ≤ s.cfg.memCapacity →
    ∃ m, load bytes s = .ok { s with mem := m } ∧
      (∀ i b, bytes[i]? = some b → Memory.read m i = b) ∧
      (∀ a, bytes.length ≤ a → Memory.read m a = Memory.read s.mem a)) ∧
  (∀ (bytes : List Byte) (s : State), s.cfg.memCapacity < bytes.length → load bytes s = .error .programTooLarge)

/-- 60_exceptions.md R164, R165: the bounds-checked accessors, in every loop state. -/
def Obligations.AccessorsAreBoundsChecked : Prop :=
  (∀ (s : State) (a : Nat), a < s.cfg.memCapacity → memoryRead a s = .ok (Memory.read s.mem a)) ∧
  (∀ (s : State) (a : Nat) (v : Byte), a < s.cfg.memCapacity →
    ∃ m, StoredAt s.mem m a v ∧ memoryWrite a v s = .ok { s with mem := m }) ∧
  (∀ (s : State) (a : Nat) (v : Byte), s.cfg.memCapacity ≤ a →
    memoryRead a s = .error .outOfBoundsAccess ∧ memoryWrite a v s = .error .outOfBoundsAccess) ∧
  (∀ (s : State) (r : RegIndex) (v : Byte),
    registerRead r s = .ok (s.reg r) ∧ registerWrite r v s = .ok { s with regs := s.regs.set r v }) ∧
  (∀ (s : State) (idx : Nat) (v : Byte), 8 ≤ idx →
    registerRead idx s = .error .outOfBoundsAccess ∧ registerWrite idx v s = .error .outOfBoundsAccess)

/-- 60_exceptions.md R161: a run with budget B performs at most B steps; it ends Halted or Faulted if one of them
reaches that state (or the block was there), and CycleBudgetExceeded exactly when B steps have been executed and the
block is still Running. (A run that meets a refusal stops there, R158.) -/
def Obligations.BudgetBoundsTheRun : Prop :=
  ∀ (budget : Nat) (s t : State) (e : RunEnd), runBudget budget s = (e, t) →
    match e with
    | .cycleBudgetExceeded => t.loop = .running ∧ Host.Core.run core budget s = .next t
    | .halted => t.loop = .halted ∧ ∃ n, n ≤ budget ∧ Host.Core.run core n s = .next t
    | .faulted k => t.loop = .faulted k ∧ ∃ n, n ≤ budget ∧ Host.Core.run core n s = .next t
    | .refused r => step t = .refused r ∧ ∃ n, n < budget ∧ Host.Core.run core n s = .next t

/-- 40_dispatch.md R92, 60_exceptions.md R161: a run that has ended is not changed by a bigger budget, so what a run
without a budget ends in is determined by the state it starts in. -/
def Obligations.EndedRunsAreDetermined : Prop :=
  (∀ (n m : Nat) (s t : State) (e : RunEnd), e ≠ .cycleBudgetExceeded → runBudget n s = (e, t) → n ≤ m →
    runBudget m s = (e, t)) ∧
  (∀ (s t t' : State) (e e' : RunEnd), RunEnds none s e t → RunEnds none s e' t' → e = e' ∧ t = t')

/-- 40_dispatch.md R91: what a step reports beside the loop state: the address, opcode byte and operand bytes of the
instruction at pc, whatever its outcome, and no instruction when the block is not Running (log entry 10). -/
def Obligations.StepReportShowsTheInstruction : Prop :=
  (∀ (s : State) (i : Instr), s.loop = .running → InstrAtPc i s →
    (stepReport s).address = s.pc ∧ (stepReport s).result = (stepCommand s).2 ∧
    some (encode i) = (stepReport s).opcode.map fun b => b :: (stepReport s).operands) ∧
  (∀ s : State, s.loop ≠ .running →
    (stepReport s).opcode = none ∧ (stepReport s).operands = [] ∧ (stepReport s).result = .loop s.loop)

/-- 20_memory.md, instruction-fetch coherence: a byte that a PUSH stores where the next instruction begins is the opcode
byte of the very next step, whatever byte it is: an illegal one faults, a legal one whose operand bytes would lie past
memory faults, and a legal one whose operand bytes follow in memory runs its instruction. -/
def Obligations.PushedOpcodeRunsNext : Prop :=
  ∀ (s : State) (r : RegIndex), s.loop = .running → r ≠ 7 → InstrAtPc (.push (regByte r)) s →
    s.sp.toNat = s.pc + 3 → s.pc + 2 < s.cfg.memCapacity →
    ∃ t, step s = .next t ∧ t.loop = .running ∧ t.pc = s.pc + 2 ∧ memRead t.pc t = .ok (s.reg r) ∧
      (decodeOpcode (s.reg r) = none → step t = .next (faultedIn t .invalidOpcode)) ∧
      (∀ m, decodeOpcode (s.reg r) = some m → s.cfg.memCapacity ≤ s.pc + 2 + m.operandCount →
        step t = .next (faultedIn t .outOfBoundsAccess)) ∧
      (∀ i ops, encode i = s.reg r :: ops →
        (∀ n b, ops[n]? = some b →
          s.pc + 3 + n < s.cfg.memCapacity ∧ Memory.read s.mem (s.pc + 3 + n) = b) →
        step t = exec i t)
end

