-- ==== Sys2Proof/Laws/Decode.lean ====
section
/-! SUPPORT. Small lemmas about decoding and encoding; that decode and encode agree is an obligation and is not proved
here. -/

namespace Sys2Proof

/-- The opcode byte of R66 for a mnemonic. -/
def Mnemonic.opcode : Mnemonic → Byte
  | .hlt => 0x01
  | .ret => 0x11
  | .push => 0x45
  | .pop => 0x46
  | .prn => 0x47
  | .call => 0x50
  | .jmp => 0x54
  | .jeq => 0x55
  | .jne => 0x56
  | .not => 0x69
  | .ldi => 0x82
  | .add => 0xA0
  | .sub => 0xA1
  | .mul => 0xA2
  | .div => 0xA3
  | .mod => 0xA4
  | .cmp => 0xA7
  | .and => 0xA8
  | .or => 0xAA
  | .xor => 0xAB
  | .shl => 0xAC
  | .shr => 0xAD

@[simp] theorem decodeOpcode_opcode (m : Mnemonic) : decodeOpcode m.opcode = some m := by
  cases m <;> rfl

/-- No two bytes name one mnemonic. -/
theorem eq_opcode_of_decodeOpcode {b : Byte} {m : Mnemonic} (h : decodeOpcode b = some m) : b = m.opcode := by
  have all : ∀ b : Byte, decodeOpcode b = none ∨ ∃ m, decodeOpcode b = some m ∧ b = m.opcode := by
    intro b
    simp only [decodeOpcode]
    split <;>
      first
        | exact .inl rfl
        | exact .inr ⟨_, rfl, BitVec.eq_of_toNat_eq (by assumption)⟩
  rcases all b with hn | ⟨m', hm, hb⟩
  · rw [hn] at h
    exact absurd h (by simp)
  · rw [hm] at h
    exact Option.some.inj h ▸ hb

theorem operandCount_le_two (m : Mnemonic) : m.operandCount ≤ 2 := by
  cases m <;> simp [Mnemonic.operandCount]

/-- The encoding begins with the opcode byte. -/
theorem encode_eq_cons (i : Instr) : ∃ ops, encode i = i.mnemonic.opcode :: ops ∧ ops.length = i.mnemonic.operandCount ∧
    i.mnemonic.build ops = i := by
  cases i <;> exact ⟨_, rfl, rfl, rfl⟩

theorem decode_cons_none {b : Byte} {rest : List Byte} (h : decodeOpcode b = none) :
    decode (b :: rest) = .error (.invalidOpcode b) := by
  simp [decode, h]

theorem decode_cons_some {b : Byte} {m : Mnemonic} {rest : List Byte} (h : decodeOpcode b = some m)
    (hl : m.operandCount ≤ rest.length) :
    decode (b :: rest) = .ok (m.build (rest.take m.operandCount), rest.drop m.operandCount) := by
  simp [decode, h, hl]

/-- What a successful decoding says. -/
theorem decode_ok {bs rest : List Byte} {i : Instr} (h : decode bs = .ok (i, rest)) :
    ∃ b m tl, bs = b :: tl ∧ decodeOpcode b = some m ∧ m.operandCount ≤ tl.length ∧
      i = m.build (tl.take m.operandCount) ∧ rest = tl.drop m.operandCount := by
  cases bs with
  | nil => simp [decode] at h
  | cons b tl =>
    cases hm : decodeOpcode b with
    | none => simp [decode, hm] at h
    | some m =>
      by_cases hl : m.operandCount ≤ tl.length
      · rw [decode_cons_some hm hl] at h
        simp only [Except.ok.injEq, Prod.mk.injEq] at h
        exact ⟨b, m, tl, rfl, hm, hl, h.1.symm, h.2.symm⟩
      · simp [decode, hm, hl] at h

@[simp] theorem build_mnemonic (m : Mnemonic) (ops : List Byte) : (m.build ops).mnemonic = m := by
  cases m <;> rfl

end Sys2Proof
end

