-- ==== Sys2Proof/Laws/State.lean ====
section
/-! SUPPORT. One lemma per field per update of `State`, and reading a register after each update, all simp lemmas: no
later proof unfolds a record update. -/

namespace Sys2Proof.Machine

variable (s : State)

@[simp] theorem State.setReg_regs (r : RegIndex) (v : Byte) : (s.setReg r v).regs = s.regs.set r v := rfl
@[simp] theorem State.setReg_pc (r : RegIndex) (v : Byte) : (s.setReg r v).pc = s.pc := rfl
@[simp] theorem State.setReg_fl (r : RegIndex) (v : Byte) : (s.setReg r v).fl = s.fl := rfl
@[simp] theorem State.setReg_mem (r : RegIndex) (v : Byte) : (s.setReg r v).mem = s.mem := rfl
@[simp] theorem State.setReg_loop (r : RegIndex) (v : Byte) : (s.setReg r v).loop = s.loop := rfl
@[simp] theorem State.setReg_out (r : RegIndex) (v : Byte) : (s.setReg r v).out = s.out := rfl
@[simp] theorem State.setReg_cfg (r : RegIndex) (v : Byte) : (s.setReg r v).cfg = s.cfg := rfl

@[simp] theorem State.setSp_regs (v : Byte) : (s.setSp v).regs = s.regs.set spIndex v := rfl
@[simp] theorem State.setSp_pc (v : Byte) : (s.setSp v).pc = s.pc := rfl
@[simp] theorem State.setSp_fl (v : Byte) : (s.setSp v).fl = s.fl := rfl
@[simp] theorem State.setSp_mem (v : Byte) : (s.setSp v).mem = s.mem := rfl
@[simp] theorem State.setSp_loop (v : Byte) : (s.setSp v).loop = s.loop := rfl
@[simp] theorem State.setSp_out (v : Byte) : (s.setSp v).out = s.out := rfl
@[simp] theorem State.setSp_cfg (v : Byte) : (s.setSp v).cfg = s.cfg := rfl

@[simp] theorem State.setPc_regs (n : Nat) : (s.setPc n).regs = s.regs := rfl
@[simp] theorem State.setPc_pc (n : Nat) : (s.setPc n).pc = n := rfl
@[simp] theorem State.setPc_fl (n : Nat) : (s.setPc n).fl = s.fl := rfl
@[simp] theorem State.setPc_mem (n : Nat) : (s.setPc n).mem = s.mem := rfl
@[simp] theorem State.setPc_loop (n : Nat) : (s.setPc n).loop = s.loop := rfl
@[simp] theorem State.setPc_out (n : Nat) : (s.setPc n).out = s.out := rfl
@[simp] theorem State.setPc_cfg (n : Nat) : (s.setPc n).cfg = s.cfg := rfl
@[simp] theorem State.setPc_reg (n : Nat) (q : RegIndex) : (s.setPc n).reg q = s.reg q := rfl
@[simp] theorem State.setPc_sp (n : Nat) : (s.setPc n).sp = s.sp := rfl

@[simp] theorem State.setFl_regs (v : FlagBits) : (s.setFl v).regs = s.regs := rfl
@[simp] theorem State.setFl_pc (v : FlagBits) : (s.setFl v).pc = s.pc := rfl
@[simp] theorem State.setFl_fl (v : FlagBits) : (s.setFl v).fl = v := rfl
@[simp] theorem State.setFl_mem (v : FlagBits) : (s.setFl v).mem = s.mem := rfl
@[simp] theorem State.setFl_loop (v : FlagBits) : (s.setFl v).loop = s.loop := rfl
@[simp] theorem State.setFl_out (v : FlagBits) : (s.setFl v).out = s.out := rfl
@[simp] theorem State.setFl_cfg (v : FlagBits) : (s.setFl v).cfg = s.cfg := rfl
@[simp] theorem State.setFl_reg (v : FlagBits) (q : RegIndex) : (s.setFl v).reg q = s.reg q := rfl
@[simp] theorem State.setFl_sp (v : FlagBits) : (s.setFl v).sp = s.sp := rfl

@[simp] theorem State.emit_regs (v : Byte) : (s.emit v).regs = s.regs := rfl
@[simp] theorem State.emit_pc (v : Byte) : (s.emit v).pc = s.pc := rfl
@[simp] theorem State.emit_fl (v : Byte) : (s.emit v).fl = s.fl := rfl
@[simp] theorem State.emit_mem (v : Byte) : (s.emit v).mem = s.mem := rfl
@[simp] theorem State.emit_loop (v : Byte) : (s.emit v).loop = s.loop := rfl
@[simp] theorem State.emit_out (v : Byte) : (s.emit v).out = s.out ++ [v] := rfl
@[simp] theorem State.emit_cfg (v : Byte) : (s.emit v).cfg = s.cfg := rfl
@[simp] theorem State.emit_reg (v : Byte) (q : RegIndex) : (s.emit v).reg q = s.reg q := rfl
@[simp] theorem State.emit_sp (v : Byte) : (s.emit v).sp = s.sp := rfl

@[simp] theorem State.halt_regs : (s.halt).regs = s.regs := rfl
@[simp] theorem State.halt_pc : (s.halt).pc = s.pc := rfl
@[simp] theorem State.halt_fl : (s.halt).fl = s.fl := rfl
@[simp] theorem State.halt_mem : (s.halt).mem = s.mem := rfl
@[simp] theorem State.halt_loop : (s.halt).loop = .halted := rfl
@[simp] theorem State.halt_out : (s.halt).out = s.out := rfl
@[simp] theorem State.halt_cfg : (s.halt).cfg = s.cfg := rfl
@[simp] theorem State.halt_reg (q : RegIndex) : (s.halt).reg q = s.reg q := rfl
@[simp] theorem State.halt_sp : (s.halt).sp = s.sp := rfl

@[simp] theorem takeFault_regs (k : Fault) : (takeFault k s).regs = s.regs := rfl
@[simp] theorem takeFault_pc (k : Fault) : (takeFault k s).pc = s.pc := rfl
@[simp] theorem takeFault_fl (k : Fault) : (takeFault k s).fl = s.fl := rfl
@[simp] theorem takeFault_mem (k : Fault) : (takeFault k s).mem = s.mem := rfl
@[simp] theorem takeFault_loop (k : Fault) : (takeFault k s).loop = .faulted k := rfl
@[simp] theorem takeFault_out (k : Fault) : (takeFault k s).out = s.out := rfl
@[simp] theorem takeFault_cfg (k : Fault) : (takeFault k s).cfg = s.cfg := rfl
@[simp] theorem takeFault_reg (k : Fault) (q : RegIndex) : (takeFault k s).reg q = s.reg q := rfl
@[simp] theorem takeFault_sp (k : Fault) : (takeFault k s).sp = s.sp := rfl

/-- Every register reads the last value written to it (R21). -/
theorem State.setReg_reg (r q : RegIndex) (v : Byte) : (s.setReg r v).reg q = if r = q then v else s.reg q := by
  simp [State.reg, State.setReg, Vector.getElem_set, Fin.ext_iff]

@[simp] theorem State.setReg_reg_same (r : RegIndex) (v : Byte) : (s.setReg r v).reg r = v := by
  simp [State.setReg_reg]

theorem State.setReg_reg_other {r q : RegIndex} (v : Byte) (h : r ≠ q) : (s.setReg r v).reg q = s.reg q := by
  simp [State.setReg_reg, h]

theorem State.setSp_reg (q : RegIndex) (v : Byte) : (s.setSp v).reg q = if spIndex = q then v else s.reg q :=
  State.setReg_reg s spIndex q v

@[simp] theorem State.setSp_sp (v : Byte) : (s.setSp v).sp = v := State.setReg_reg_same s spIndex v

theorem State.sp_eq_reg : s.sp = s.reg spIndex := rfl

/-- A register read in a state whose register file is `v`. -/
@[simp] theorem State.reg_mk (v : Vector Byte 8) (pc : Nat) (fl : FlagBits) (m : Memory) (l : LoopState)
    (o : List Byte) (c : Config) (q : RegIndex) : (State.mk v pc fl m l o c).reg q = v[q] := rfl

@[simp] theorem State.sp_mk (v : Vector Byte 8) (pc : Nat) (fl : FlagBits) (m : Memory) (l : LoopState)
    (o : List Byte) (c : Config) : (State.mk v pc fl m l o c).sp = v[spIndex] := rfl

end Sys2Proof.Machine
end

