-- ==== Sys2Proof/Laws/Ops.lean ====
section
/-! SUPPORT. One lemma for everything each shared operation can do: memory access, push, pop, retire, register index
bytes, the R7 guard. -/

namespace Sys2Proof.Machine

theorem memRead_eq (a : Nat) (s : State) :
    memRead a s = if a < s.cfg.memCapacity then .ok (Memory.read s.mem a) else .error .outOfBoundsAccess := rfl

theorem memRead_error {a : Nat} {s : State} {k : Fault} (h : memRead a s = .error k) :
    k = .outOfBoundsAccess ∧ s.cfg.memCapacity ≤ a := by
  simp only [memRead] at h
  split at h <;> simp_all

theorem memRead_ok {a : Nat} {s : State} {v : Byte} (h : memRead a s = .ok v) :
    a < s.cfg.memCapacity ∧ v = Memory.read s.mem a := by
  simp only [memRead] at h
  split at h <;> simp_all

theorem memWrite_error {a : Nat} {v : Byte} {s : State} {k : Fault} (h : memWrite a v s = .error k) :
    k = .outOfBoundsAccess ∧ s.cfg.memCapacity ≤ a := by
  simp only [memWrite] at h
  split at h <;> simp_all

theorem memWrite_ok {a : Nat} {v : Byte} {s t : State} (h : memWrite a v s = .ok t) :
    a < s.cfg.memCapacity ∧ t = { s with mem := Memory.write s.mem a v } := by
  simp only [memWrite] at h
  split at h <;> simp_all

/-- SP - 1 as a byte is SP - 1 as a natural when SP is not 0. -/
theorem toNat_pred {b : Byte} (h : b ≠ 0) : (b - 1).toNat = b.toNat - 1 := by
  have : b.toNat ≠ 0 := fun h0 => h (by simpa using BitVec.eq_of_toNat_eq (x := b) (y := 0) (by simpa using h0))
  have := b.isLt
  rw [BitVec.toNat_sub]
  simp
  omega

/-- Everything a push can do when it does not raise (R120). -/
theorem push_ok {v : Byte} {s t : State} (h : push v s = .ok t) :
    s.sp ≠ 0 ∧ (s.sp - 1).toNat < s.cfg.memCapacity ∧
    t = { s with regs := s.regs.set spIndex (s.sp - 1), mem := Memory.write s.mem (s.sp - 1).toNat v } := by
  simp only [push] at h
  split at h
  · simp at h
  · rename_i h0
    obtain ⟨hlt, rfl⟩ := memWrite_ok h
    exact ⟨h0, hlt, rfl⟩

/-- Why a push raises (R120). -/
theorem push_error {v : Byte} {s : State} {k : Fault} (h : push v s = .error k) :
    (k = .stackOverflow ∧ s.sp = 0) ∨
    (k = .outOfBoundsAccess ∧ s.sp ≠ 0 ∧ s.cfg.memCapacity ≤ (s.sp - 1).toNat) := by
  simp only [push] at h
  split at h
  · simp_all
  · exact .inr ⟨(memWrite_error h).1, ‹_›, (memWrite_error h).2⟩

theorem push_of_room {v : Byte} {s : State} (h0 : s.sp ≠ 0) (hlt : (s.sp - 1).toNat < s.cfg.memCapacity) :
    push v s = .ok { s with regs := s.regs.set spIndex (s.sp - 1), mem := Memory.write s.mem (s.sp - 1).toNat v } := by
  rw [push, if_neg h0, memWrite, if_pos (by simpa using hlt)]
  rfl

theorem push_of_zero {v : Byte} {s : State} (h0 : s.sp = 0) : push v s = .error .stackOverflow := by
  rw [push, if_pos h0]

theorem push_of_full {v : Byte} {s : State} (h0 : s.sp ≠ 0) (hge : s.cfg.memCapacity ≤ (s.sp - 1).toNat) :
    push v s = .error .outOfBoundsAccess := by
  rw [push, if_neg h0, memWrite, if_neg (by simpa using hge)]

/-- Everything a pop can do when it does not raise (R121). -/
theorem pop_ok {v : Byte} {s t : State} (h : pop s = .ok (v, t)) :
    s.sp.toNat < s.cfg.stackTop ∧ s.sp.toNat < s.cfg.memCapacity ∧ v = Memory.read s.mem s.sp.toNat ∧
    t = s.setSp (s.sp + 1) := by
  simp only [pop] at h
  split at h
  · simp at h
  · split at h
    · simp at h
    · rename_i hlt _ _ hr
      obtain ⟨hr1, hr2⟩ := memRead_ok hr
      simp only [Except.ok.injEq, Prod.mk.injEq] at h
      exact ⟨by omega, hr1, h.1 ▸ hr2, h.2.symm⟩

/-- Why a pop raises (R121). -/
theorem pop_error {s : State} {k : Fault} (h : pop s = .error k) :
    (k = .stackUnderflow ∧ s.cfg.stackTop ≤ s.sp.toNat) ∨
    (k = .outOfBoundsAccess ∧ s.sp.toNat < s.cfg.stackTop ∧ s.cfg.memCapacity ≤ s.sp.toNat) := by
  simp only [pop] at h
  split at h
  · simp_all
  · split at h
    · rename_i hlt _ _ hr
      have hr' := memRead_error hr
      simp only [Except.error.injEq] at h
      exact .inr ⟨h ▸ hr'.1, by omega, hr'.2⟩
    · simp at h

theorem pop_of_item {s : State} (h1 : s.sp.toNat < s.cfg.stackTop) (h2 : s.sp.toNat < s.cfg.memCapacity) :
    pop s = .ok (Memory.read s.mem s.sp.toNat, s.setSp (s.sp + 1)) := by
  rw [pop, if_neg (by omega), memRead, if_pos h2]

theorem pop_of_empty {s : State} (h : s.cfg.stackTop ≤ s.sp.toNat) : pop s = .error .stackUnderflow := by
  rw [pop, if_pos h]

theorem pop_of_outside {s : State} (h1 : s.sp.toNat < s.cfg.stackTop) (h2 : s.cfg.memCapacity ≤ s.sp.toNat) :
    pop s = .error .outOfBoundsAccess := by
  rw [pop, if_neg (by omega), memRead, if_neg (by omega)]

/-- What an instruction's end answers: the fault taken in the state before it, or the handler's writes with pc
advanced (R87, R89). -/
theorem retire_next {m : Mnemonic} {s t : State} {r : Except Fault State} (h : retire m s r = .next t) :
    (∃ k, r = .error k ∧ t = takeFault k s) ∨ (∃ u, r = .ok u ∧ t = advance m s u) := by
  cases r with
  | error k => exact .inl ⟨k, rfl, by simpa [retire] using h.symm⟩
  | ok u => exact .inr ⟨u, rfl, by simpa [retire] using h.symm⟩

@[simp] theorem retire_ok (m : Mnemonic) (s u : State) : retire m s (.ok u) = .next (advance m s u) := rfl

@[simp] theorem retire_error (m : Mnemonic) (s : State) (k : Fault) : retire m s (.error k) = .next (takeFault k s) := rfl

/-- An instruction's end is never a refusal or an outcome fault. -/
theorem retire_answers (m : Mnemonic) (s : State) (r : Except Fault State) : ∃ t, retire m s r = .next t := by
  cases r with
  | error k => exact ⟨_, rfl⟩
  | ok u => exact ⟨_, rfl⟩

/-- The advance writes pc and nothing else. -/
theorem advance_eq (m : Mnemonic) (s t : State) :
    advance m s t = { t with pc := if m.controlFlow then t.pc else s.pc + 1 + m.operandCount } := by
  cases h : m.controlFlow <;> simp [advance, h, State.setPc]

@[simp] theorem regIndex_regByte (r : RegIndex) : regIndex (regByte r) = .ok r := by
  have hr : (regByte r).toNat = r.val := by
    simp only [regByte, BitVec.toNat_ofNat]
    omega
  rw [regIndex, dif_pos (by omega)]
  exact congrArg _ (Fin.ext hr)

theorem regIndex_of_ge {b : Byte} (h : 8 ≤ b.toNat) : regIndex b = .error .outOfBoundsAccess := by
  rw [regIndex, dif_neg (by omega)]

/-- A valid register operand byte is the byte of a register index. -/
theorem eq_regByte_of_lt {b : Byte} (h : b.toNat < 8) : b = regByte ⟨b.toNat, h⟩ := by
  simp [regByte]

theorem regByte_toNat (r : RegIndex) : (regByte r).toNat = r.val := by
  simp only [regByte, BitVec.toNat_ofNat]
  omega

theorem regByte_injective {r q : RegIndex} (h : regByte r = regByte q) : r = q := by
  have := congrArg BitVec.toNat h
  rw [regByte_toNat, regByte_toNat] at this
  exact Fin.ext this

/-- What `Reg(b)` answers (R12). -/
theorem regIndex_cases (b : Byte) :
    (∃ r, b = regByte r ∧ regIndex b = .ok r) ∨ (8 ≤ b.toNat ∧ regIndex b = .error .outOfBoundsAccess) := by
  by_cases h : b.toNat < 8
  · exact .inl ⟨⟨b.toNat, h⟩, eq_regByte_of_lt h, by rw [regIndex, dif_pos h]⟩
  · exact .inr ⟨by omega, regIndex_of_ge (by omega)⟩

@[simp] theorem regPair_regByte (a b : RegIndex) : regPair (regByte a) (regByte b) = .ok (a, b) := by
  simp [regPair]

theorem regPair_of_ge {a b : Byte} (h : 8 ≤ a.toNat ∨ 8 ≤ b.toNat) :
    regPair a b = .error .outOfBoundsAccess := by
  rcases regIndex_cases a with ⟨r, rfl, hr⟩ | ⟨_, hr⟩
  · rw [regPair, hr, regIndex_of_ge (by have := regByte_toNat r; omega)]
  · rw [regPair, hr]

/-- What `Reg(op1)`, `Reg(op2)` answer together (R100). -/
theorem regPair_cases (a b : Byte) :
    (∃ p q, a = regByte p ∧ b = regByte q ∧ regPair a b = .ok (p, q)) ∨
    ((8 ≤ a.toNat ∨ 8 ≤ b.toNat) ∧ regPair a b = .error .outOfBoundsAccess) := by
  rcases regIndex_cases a with ⟨p, rfl, _⟩ | ⟨ha, _⟩
  · rcases regIndex_cases b with ⟨q, rfl, _⟩ | ⟨hb, _⟩
    · exact .inl ⟨p, q, rfl, rfl, regPair_regByte p q⟩
    · exact .inr ⟨.inr hb, regPair_of_ge (.inr hb)⟩
  · exact .inr ⟨.inl ha, regPair_of_ge (.inl ha)⟩

theorem guardSpOperand_of_ne {r : RegIndex} {s : State} {o : Host.Outcome State Fault Refusal} (h : r ≠ spIndex) :
    guardSpOperand (regByte r) s o = o := by
  rw [guardSpOperand, if_neg fun hh => h (regByte_injective hh.1)]

theorem guardSpOperand_of_ge {b : Byte} {s : State} {o : Host.Outcome State Fault Refusal} (h : 8 ≤ b.toNat) :
    guardSpOperand b s o = o := by
  rw [guardSpOperand, if_neg fun hh => ?_]
  have := congrArg BitVec.toNat hh.1
  rw [regByte_toNat] at this
  simp at this
  omega

theorem guardSpOperand_of_sequential {b : Byte} {s : State} {o : Host.Outcome State Fault Refusal}
    (h : s.cfg.spPolicy = .sequential) : guardSpOperand b s o = o := by
  rw [guardSpOperand, if_neg fun hh => by rw [h] at hh; exact SpOperandPolicy.noConfusion hh.2]

theorem guardSpOperand_of_refuse {s : State} {o : Host.Outcome State Fault Refusal} (h : s.cfg.spPolicy = .refuse) :
    guardSpOperand (regByte spIndex) s o = .refused .spOperand := by
  rw [guardSpOperand, if_pos ⟨rfl, h⟩]

/-- What the guard answers: the refusal, for R7 under `Refuse` only, or the outcome of the form (R122). -/
theorem guardSpOperand_cases (b : Byte) (s : State) (o : Host.Outcome State Fault Refusal) :
    (b = regByte spIndex ∧ s.cfg.spPolicy = .refuse ∧ guardSpOperand b s o = .refused .spOperand) ∨
    (¬(b = regByte spIndex ∧ s.cfg.spPolicy = .refuse) ∧ guardSpOperand b s o = o) := by
  by_cases h : b = regByte spIndex ∧ s.cfg.spPolicy = .refuse
  · exact .inl ⟨h.1, h.2, by rw [guardSpOperand, if_pos h]⟩
  · exact .inr ⟨h, by rw [guardSpOperand, if_neg h]⟩

end Sys2Proof.Machine
end

