-- ==== Sys2Proof/Laws/Exec.lean ====
section
/-! SUPPORT. Said once: everything `exec` can do. `Effect i s t` is the whole effect of `i` where it completes, `Raises`
the faults it can raise with their causes, `Refuses` the three forms R122 refuses; `exec_cases` says that one of the
three holds and what `exec` answers there. Later proofs cite it and do not unfold a meaning. -/

namespace Sys2Proof.Machine

/-- The forms refused under `Refuse` (R122). -/
def Refuses (i : Instr) (s : State) : Prop :=
  s.cfg.spPolicy = .refuse ∧ (i = .push (regByte spIndex) ∨ i = .pop (regByte spIndex) ∨ i = .call (regByte spIndex))

/-- The state after `x[p] <- v` and the advance of an instruction of `n` bytes. -/
def wrote (s : State) (p : RegIndex) (v : Byte) (n : Nat) : State :=
  { s with regs := s.regs.set p v, pc := s.pc + n }

/-- The state after a push of `v` that leaves `pc` (R120). -/
def pushed (s : State) (v : Byte) (pc : Nat) : State :=
  { s with regs := s.regs.set spIndex (s.sp - 1), mem := Memory.write s.mem (s.sp - 1).toNat v, pc := pc }

/-- The effect of a two-register ALU instruction. -/
def BinaryEffect (f : Byte → Byte → Byte) (a b : Byte) (s t : State) : Prop :=
  ∃ p q, a = regByte p ∧ b = regByte q ∧ t = wrote s p (f (s.reg p) (s.reg q)) 3

/-- The effect of DIV and MOD. -/
def DivideEffect (f : Byte → Byte → Byte) (a b : Byte) (s t : State) : Prop :=
  ∃ p q, a = regByte p ∧ b = regByte q ∧ s.reg q ≠ 0 ∧ t = wrote s p (f (s.reg p) (s.reg q)) 3

/-- The effect of a jump whose condition is `taken`. -/
def BranchEffect (taken : Bool) (r : Byte) (s t : State) : Prop :=
  ∃ p, r = regByte p ∧ t = s.setPc (if taken then (s.reg p).toNat else s.pc + 2)

/-- There is room for a push (R120). -/
def Room (s : State) : Prop := s.sp ≠ 0 ∧ (s.sp - 1).toNat < s.cfg.memCapacity

/-- There is an item to pop (R121). -/
def Item (s : State) : Prop := s.sp.toNat < s.cfg.stackTop ∧ s.sp.toNat < s.cfg.memCapacity

/-- The whole effect of an instruction that completes. -/
def Effect (i : Instr) (s t : State) : Prop :=
  match i with
  | .hlt => t = { s with loop := .halted, pc := s.pc + 1 }
  | .ret => Item s ∧ t = (s.setSp (s.sp + 1)).setPc (Memory.read s.mem s.sp.toNat).toNat
  | .push r => ∃ p, r = regByte p ∧ Room s ∧ t = pushed s (pushedValue p s) (s.pc + 2)
  | .pop r => ∃ p, r = regByte p ∧ Item s ∧
      t = (if p = spIndex then s.setSp (Memory.read s.mem s.sp.toNat + 1)
        else (s.setSp (s.sp + 1)).setReg p (Memory.read s.mem s.sp.toNat)).setPc (s.pc + 2)
  | .prn r => ∃ p, r = regByte p ∧ t = (s.emit (s.reg p)).setPc (s.pc + 2)
  | .call r => ∃ p, r = regByte p ∧ s.pc + 2 ≤ 255 ∧ Room s ∧
      t = pushed s (BitVec.ofNat 8 (s.pc + 2)) (if p = spIndex then s.sp - 1 else s.reg p).toNat
  | .jmp r => BranchEffect true r s t
  | .jeq r => BranchEffect (equalBit s.fl) r s t
  | .jne r => BranchEffect (!equalBit s.fl) r s t
  | .not r => ∃ p, r = regByte p ∧ t = wrote s p (aluNot (s.reg p)) 2
  | .ldi r imm => ∃ p, r = regByte p ∧ t = wrote s p imm 3
  | .add a b => BinaryEffect aluAdd a b s t
  | .sub a b => BinaryEffect aluSub a b s t
  | .mul a b => BinaryEffect aluMul a b s t
  | .div a b => DivideEffect aluDiv a b s t
  | .mod a b => DivideEffect aluMod a b s t
  | .cmp a b => ∃ p q, a = regByte p ∧ b = regByte q ∧
      t = (s.setFl (compareFlags (s.reg p) (s.reg q))).setPc (s.pc + 3)
  | .and a b => BinaryEffect aluAnd a b s t
  | .or a b => BinaryEffect aluOr a b s t
  | .xor a b => BinaryEffect aluXor a b s t
  | .shl a b => BinaryEffect aluShl a b s t
  | .shr a b => BinaryEffect aluShr a b s t

/-- A stack item cannot be pushed, and why (R120). -/
def PushRaises (s : State) (k : Fault) : Prop :=
  (k = .stackOverflow ∧ s.sp = 0) ∨
  (k = .outOfBoundsAccess ∧ s.sp ≠ 0 ∧ s.cfg.memCapacity ≤ (s.sp - 1).toNat)

/-- A stack item cannot be popped, and why (R121). -/
def PopRaises (s : State) (k : Fault) : Prop :=
  (k = .stackUnderflow ∧ s.cfg.stackTop ≤ s.sp.toNat) ∨
  (k = .outOfBoundsAccess ∧ s.sp.toNat < s.cfg.stackTop ∧ s.cfg.memCapacity ≤ s.sp.toNat)

/-- A first or only operand byte that names no register. -/
def BadReg (r : Byte) (k : Fault) : Prop := k = .outOfBoundsAccess ∧ 8 ≤ r.toNat

/-- One of two operand bytes names no register. -/
def BadPair (a b : Byte) (k : Fault) : Prop := k = .outOfBoundsAccess ∧ (8 ≤ a.toNat ∨ 8 ≤ b.toNat)

/-- DIV and MOD raise (R105, R106). -/
def DivideRaises (a b : Byte) (s : State) (k : Fault) : Prop :=
  BadPair a b k ∨ ∃ p q, a = regByte p ∧ b = regByte q ∧ s.reg q = 0 ∧ k = .divisionByZero

/-- The faults an instruction raises, with their causes. -/
def Raises (i : Instr) (s : State) (k : Fault) : Prop :=
  match i with
  | .hlt => False
  | .ret => PopRaises s k
  | .push r => BadReg r k ∨ (∃ p, r = regByte p) ∧ PushRaises s k
  | .pop r => BadReg r k ∨ (∃ p, r = regByte p) ∧ PopRaises s k
  | .call r => BadReg r k ∨ (∃ p, r = regByte p) ∧
      ((k = .outOfBoundsAccess ∧ 255 < s.pc + 2) ∨ (s.pc + 2 ≤ 255 ∧ PushRaises s k))
  | .prn r | .jmp r | .jeq r | .jne r | .not r | .ldi r _ => BadReg r k
  | .div a b | .mod a b => DivideRaises a b s k
  | .add a b | .sub a b | .mul a b | .cmp a b | .and a b | .or a b | .xor a b | .shl a b | .shr a b => BadPair a b k

/-- The three ways an instruction can go. -/
def Outcomes (i : Instr) (s : State) (o : Host.Outcome State Fault Refusal) : Prop :=
  (Refuses i s ∧ o = .refused .spOperand) ∨
  (¬ Refuses i s ∧ ∃ k, Raises i s k ∧ o = .next (takeFault k s)) ∨
  (¬ Refuses i s ∧ ∃ t, Effect i s t ∧ o = .next t)

theorem not_refuses_of_ne {i : Instr} {s : State} (h1 : ∀ r, i ≠ .push r) (h2 : ∀ r, i ≠ .pop r)
    (h3 : ∀ r, i ≠ .call r) : ¬ Refuses i s := by
  rintro ⟨_, rfl | rfl | rfl⟩
  · exact h1 _ rfl
  · exact h2 _ rfl
  · exact h3 _ rfl

/-- `f` applied by a two-register ALU instruction: it completes, or an operand byte names no register. -/
theorem aluBinary_cases (f : Byte → Byte → Byte) (a b : Byte) (s : State) :
    (BadPair a b .outOfBoundsAccess ∧ aluBinary f a b s = .error .outOfBoundsAccess) ∨
    (∃ p q, a = regByte p ∧ b = regByte q ∧ aluBinary f a b s = .ok (s.setReg p (f (s.reg p) (s.reg q)))) := by
  rcases regPair_cases a b with ⟨p, q, rfl, rfl, h⟩ | ⟨hbad, h⟩
  · exact .inr ⟨p, q, rfl, rfl, by rw [aluBinary, h]⟩
  · exact .inl ⟨⟨rfl, hbad⟩, by rw [aluBinary, h]⟩

theorem retire_binary {m : Mnemonic} (hn : m.operandCount = 2) (hc : m.controlFlow = false)
    (f : Byte → Byte → Byte) (a b : Byte) (s : State) :
    (∃ k, BadPair a b k ∧ retire m s (aluBinary f a b s) = .next (takeFault k s)) ∨
    (∃ t, BinaryEffect f a b s t ∧ retire m s (aluBinary f a b s) = .next t) := by
  rcases aluBinary_cases f a b s with ⟨hbad, h⟩ | ⟨p, q, ha, hb, h⟩
  · exact .inl ⟨_, hbad, by rw [h]; rfl⟩
  · refine .inr ⟨_, ⟨p, q, ha, hb, rfl⟩, ?_⟩
    rw [h, retire_ok, advance_eq, hn, hc]
    rfl

theorem retire_divide {m : Mnemonic} (hn : m.operandCount = 2) (hc : m.controlFlow = false)
    (f : Byte → Byte → Byte) (a b : Byte) (s : State) :
    (∃ k, DivideRaises a b s k ∧ retire m s (aluDivide f a b s) = .next (takeFault k s)) ∨
    (∃ t, DivideEffect f a b s t ∧ retire m s (aluDivide f a b s) = .next t) := by
  rcases regPair_cases a b with ⟨p, q, rfl, rfl, h⟩ | ⟨hbad, h⟩
  · by_cases h0 : s.reg q = 0
    · exact .inl ⟨_, .inr ⟨p, q, rfl, rfl, h0, rfl⟩, by rw [aluDivide, h]; simp only [if_pos h0]; rfl⟩
    · refine .inr ⟨_, ⟨p, q, rfl, rfl, h0, rfl⟩, ?_⟩
      rw [aluDivide, h]
      simp only [if_neg h0]
      rw [retire_ok, advance_eq, hn, hc]
      rfl
  · exact .inl ⟨_, .inl ⟨rfl, hbad⟩, by rw [aluDivide, h]; rfl⟩

theorem retire_branch {m : Mnemonic} (hc : m.controlFlow = true) (taken : Bool) (r : Byte) (s : State) :
    (∃ k, BadReg r k ∧ retire m s (branch taken r s) = .next (takeFault k s)) ∨
    (∃ t, BranchEffect taken r s t ∧ retire m s (branch taken r s) = .next t) := by
  rcases regIndex_cases r with ⟨p, rfl, h⟩ | ⟨hbad, h⟩
  · refine .inr ⟨_, ⟨p, rfl, rfl⟩, ?_⟩
    rw [branch, h]
    simp only [retire_ok, advance, hc, if_true]
  · exact .inl ⟨_, ⟨rfl, hbad⟩, by rw [branch, h]; rfl⟩

theorem retire_push (r : Byte) (s : State) :
    (∃ k, Raises (.push r) s k ∧ retire .push s (pushHandler r s) = .next (takeFault k s)) ∨
    (∃ t, Effect (.push r) s t ∧ retire .push s (pushHandler r s) = .next t) := by
  rcases regIndex_cases r with ⟨p, rfl, h⟩ | ⟨hbad, h⟩
  · have hh : pushHandler (regByte p) s = push (pushedValue p s) s := by rw [pushHandler, h]
    rw [hh]
    cases hp : push (pushedValue p s) s with
    | error k => exact .inl ⟨k, .inr ⟨⟨p, rfl⟩, push_error hp⟩, rfl⟩
    | ok t =>
      obtain ⟨h0, hlt, rfl⟩ := push_ok hp
      exact .inr ⟨_, ⟨p, rfl, ⟨h0, hlt⟩, rfl⟩, rfl⟩
  · exact .inl ⟨_, .inl ⟨rfl, hbad⟩, by rw [pushHandler, h]; rfl⟩

theorem retire_pop (r : Byte) (s : State) :
    (∃ k, Raises (.pop r) s k ∧ retire .pop s (popHandler r s) = .next (takeFault k s)) ∨
    (∃ t, Effect (.pop r) s t ∧ retire .pop s (popHandler r s) = .next t) := by
  rcases regIndex_cases r with ⟨p, rfl, h⟩ | ⟨hbad, h⟩
  · cases hp : pop s with
    | error k => exact .inl ⟨k, .inr ⟨⟨p, rfl⟩, pop_error hp⟩, by rw [popHandler, h]; simp only [hp]; rfl⟩
    | ok vt =>
      obtain ⟨v, t⟩ := vt
      obtain ⟨h1, h2, rfl, rfl⟩ := pop_ok hp
      exact .inr ⟨_, ⟨p, rfl, ⟨h1, h2⟩, rfl⟩, by rw [popHandler, h]; simp only [hp]; rfl⟩
  · exact .inl ⟨_, .inl ⟨rfl, hbad⟩, by rw [popHandler, h]; rfl⟩

theorem retire_call (r : Byte) (s : State) :
    (∃ k, Raises (.call r) s k ∧ retire .call s (callHandler r s) = .next (takeFault k s)) ∨
    (∃ t, Effect (.call r) s t ∧ retire .call s (callHandler r s) = .next t) := by
  rcases regIndex_cases r with ⟨p, rfl, h⟩ | ⟨hbad, h⟩
  · by_cases hpc : 255 < s.pc + 2
    · exact .inl ⟨_, .inr ⟨⟨p, rfl⟩, .inl ⟨rfl, hpc⟩⟩, by rw [callHandler, h]; simp only [if_pos hpc]; rfl⟩
    · cases hp : push (BitVec.ofNat 8 (s.pc + 2)) s with
      | error k =>
        refine .inl ⟨k, .inr ⟨⟨p, rfl⟩, .inr ⟨by omega, push_error hp⟩⟩, ?_⟩
        rw [callHandler, h]
        simp only [if_neg hpc, hp]
        rfl
      | ok t =>
        obtain ⟨h0, hlt, rfl⟩ := push_ok hp
        refine .inr ⟨_, ⟨p, rfl, by omega, ⟨h0, hlt⟩, rfl⟩, ?_⟩
        rw [callHandler, h]
        simp only [if_neg hpc, hp, retire_ok, advance, Mnemonic.controlFlow, if_true, State.setPc, pushed,
          Host.Outcome.next.injEq]
        congr 2
        rw [State.reg_mk]
        by_cases hsp : p = spIndex
        · subst hsp
          simp
        · rw [if_neg hsp]
          simp only [State.reg]
          exact Vector.getElem_set_ne (h := fun hh => hsp (Fin.ext hh.symm)) ..
  · exact .inl ⟨_, .inl ⟨rfl, hbad⟩, by rw [callHandler, h]; rfl⟩

theorem retire_ret (s : State) :
    (∃ k, Raises .ret s k ∧ retire .ret s (retHandler s) = .next (takeFault k s)) ∨
    (∃ t, Effect .ret s t ∧ retire .ret s (retHandler s) = .next t) := by
  cases hp : pop s with
  | error k => exact .inl ⟨k, pop_error hp, by rw [retHandler, hp]; rfl⟩
  | ok vt =>
    obtain ⟨v, t⟩ := vt
    obtain ⟨h1, h2, rfl, rfl⟩ := pop_ok hp
    exact .inr ⟨_, ⟨⟨h1, h2⟩, rfl⟩, by rw [retHandler, hp]; rfl⟩

/-- The three outcomes of a form that the guard looks at. -/
theorem outcomes_of_guard {i : Instr} {r : Byte} {s : State} {o : Host.Outcome State Fault Refusal}
    (hi : i = .push r ∨ i = .pop r ∨ i = .call r)
    (h : (∃ k, Raises i s k ∧ o = .next (takeFault k s)) ∨ (∃ t, Effect i s t ∧ o = .next t)) :
    Outcomes i s (guardSpOperand r s o) := by
  rcases guardSpOperand_cases r s o with ⟨hr, hpol, ho⟩ | ⟨hn, ho⟩
  · refine .inl ⟨⟨hpol, ?_⟩, ho⟩
    subst hr
    exact hi
  · have hnr : ¬ Refuses i s := by
      rintro ⟨hpol, hh⟩
      refine hn ⟨?_, hpol⟩
      rcases hi with rfl | rfl | rfl <;> simpa using hh
    rw [ho]
    rcases h with h | h
    · exact .inr (.inl ⟨hnr, h⟩)
    · exact .inr (.inr ⟨hnr, h⟩)

theorem outcomes_of_plain {i : Instr} {s : State} {o : Host.Outcome State Fault Refusal} (hn : ¬ Refuses i s)
    (h : (∃ k, Raises i s k ∧ o = .next (takeFault k s)) ∨ (∃ t, Effect i s t ∧ o = .next t)) : Outcomes i s o := by
  rcases h with h | h
  · exact .inr (.inl ⟨hn, h⟩)
  · exact .inr (.inr ⟨hn, h⟩)

/-- Everything `exec` can do. -/
theorem exec_cases (i : Instr) (s : State) : Outcomes i s (exec i s) := by
  have plain (h1 : ∀ r, i ≠ .push r) (h2 : ∀ r, i ≠ .pop r) (h3 : ∀ r, i ≠ .call r) : ¬ Refuses i s :=
    not_refuses_of_ne h1 h2 h3
  cases i with
  | hlt => exact outcomes_of_plain (plain (by simp) (by simp) (by simp)) (.inr ⟨_, rfl, rfl⟩)
  | ret => exact outcomes_of_plain (plain (by simp) (by simp) (by simp)) (retire_ret s)
  | push r => exact outcomes_of_guard (.inl rfl) (retire_push r s)
  | pop r => exact outcomes_of_guard (.inr (.inl rfl)) (retire_pop r s)
  | call r => exact outcomes_of_guard (.inr (.inr rfl)) (retire_call r s)
  | prn r =>
    refine outcomes_of_plain (plain (by simp) (by simp) (by simp)) ?_
    rcases regIndex_cases r with ⟨p, rfl, h⟩ | ⟨hbad, h⟩
    · exact .inr ⟨_, ⟨p, rfl, rfl⟩, by simp only [exec, execPrn, prnHandler, h]; rfl⟩
    · exact .inl ⟨_, ⟨rfl, hbad⟩, by simp only [exec, execPrn, prnHandler, h]; rfl⟩
  | jmp r => exact outcomes_of_plain (plain (by simp) (by simp) (by simp)) (retire_branch rfl _ r s)
  | jeq r => exact outcomes_of_plain (plain (by simp) (by simp) (by simp)) (retire_branch rfl _ r s)
  | jne r => exact outcomes_of_plain (plain (by simp) (by simp) (by simp)) (retire_branch rfl _ r s)
  | not r =>
    refine outcomes_of_plain (plain (by simp) (by simp) (by simp)) ?_
    rcases regIndex_cases r with ⟨p, rfl, h⟩ | ⟨hbad, h⟩
    · exact .inr ⟨_, ⟨p, rfl, rfl⟩, by simp only [exec, execNot, aluUnary, h]; rfl⟩
    · exact .inl ⟨_, ⟨rfl, hbad⟩, by simp only [exec, execNot, aluUnary, h]; rfl⟩
  | ldi r imm =>
    refine outcomes_of_plain (plain (by simp) (by simp) (by simp)) ?_
    rcases regIndex_cases r with ⟨p, rfl, h⟩ | ⟨hbad, h⟩
    · exact .inr ⟨_, ⟨p, rfl, rfl⟩, by simp only [exec, execLdi, ldiHandler, h]; rfl⟩
    · exact .inl ⟨_, ⟨rfl, hbad⟩, by simp only [exec, execLdi, ldiHandler, h]; rfl⟩
  | add a b => exact outcomes_of_plain (plain (by simp) (by simp) (by simp)) (retire_binary rfl rfl _ a b s)
  | sub a b => exact outcomes_of_plain (plain (by simp) (by simp) (by simp)) (retire_binary rfl rfl _ a b s)
  | mul a b => exact outcomes_of_plain (plain (by simp) (by simp) (by simp)) (retire_binary rfl rfl _ a b s)
  | div a b => exact outcomes_of_plain (plain (by simp) (by simp) (by simp)) (retire_divide rfl rfl _ a b s)
  | mod a b => exact outcomes_of_plain (plain (by simp) (by simp) (by simp)) (retire_divide rfl rfl _ a b s)
  | cmp a b =>
    refine outcomes_of_plain (plain (by simp) (by simp) (by simp)) ?_
    rcases regPair_cases a b with ⟨p, q, rfl, rfl, h⟩ | ⟨hbad, h⟩
    · exact .inr ⟨_, ⟨p, q, rfl, rfl, rfl⟩, by simp only [exec, execCmp, aluCompare, h]; rfl⟩
    · exact .inl ⟨_, ⟨rfl, hbad⟩, by simp only [exec, execCmp, aluCompare, h]; rfl⟩
  | and a b => exact outcomes_of_plain (plain (by simp) (by simp) (by simp)) (retire_binary rfl rfl _ a b s)
  | or a b => exact outcomes_of_plain (plain (by simp) (by simp) (by simp)) (retire_binary rfl rfl _ a b s)
  | xor a b => exact outcomes_of_plain (plain (by simp) (by simp) (by simp)) (retire_binary rfl rfl _ a b s)
  | shl a b => exact outcomes_of_plain (plain (by simp) (by simp) (by simp)) (retire_binary rfl rfl _ a b s)
  | shr a b => exact outcomes_of_plain (plain (by simp) (by simp) (by simp)) (retire_binary rfl rfl _ a b s)

/-- A next state of `exec` is the fault taken, or the effect of the instruction. -/
theorem exec_next_cases {i : Instr} {s t : State} (h : exec i s = .next t) :
    (∃ k, Raises i s k ∧ t = takeFault k s) ∨ Effect i s t := by
  rcases exec_cases i s with ⟨_, ho⟩ | ⟨_, k, hk, ho⟩ | ⟨_, u, hu, ho⟩
  · rw [h] at ho
    exact Host.Outcome.noConfusion rfl rfl rfl (heq_of_eq ho)
  · rw [h] at ho
    exact .inl ⟨k, hk, by simpa using ho⟩
  · rw [h] at ho
    have : t = u := by simpa using ho
    exact .inr (this ▸ hu)

end Sys2Proof.Machine
end

