-- ==== Sys2Proof/Laws/Fetch.lean ====
section
/-! SUPPORT. What the fetch phases answer, and everything a step can do. -/

namespace Sys2Proof.Machine

/-- Operand bytes that all lie in memory are read in order (R84). -/
theorem readOperands_of_bytes (ops : List Byte) (a : Nat) (s : State)
    (h : ∀ n (hn : n < ops.length), a + n < s.cfg.memCapacity ∧ Memory.read s.mem (a + n) = ops[n]) :
    readOperands ops.length a s = .ok ops := by
  induction ops generalizing a with
  | nil => rfl
  | cons b ops ih =>
    have h0 := h 0 (by simp)
    have ih' := ih (a + 1) fun n hn => by
      have := h (n + 1) (by simpa using hn)
      simpa [Nat.add_assoc, Nat.add_comm 1 n] using this
    simp only [List.length_cons, readOperands, memRead]
    rw [if_pos (by simpa using h0.1), ih']
    simpa using h0.2

/-- An operand byte past memory raises OutOfBoundsAccess (R84). -/
theorem readOperands_of_past {n a : Nat} {s : State} (h : ∃ i < n, s.cfg.memCapacity ≤ a + i) :
    readOperands n a s = .error .outOfBoundsAccess := by
  induction n generalizing a with
  | zero => obtain ⟨i, hi, _⟩ := h; omega
  | succ n ih =>
    obtain ⟨i, hi, hc⟩ := h
    simp only [readOperands, memRead]
    by_cases ha : a < s.cfg.memCapacity
    · rw [if_pos ha]
      simp only
      rw [ih ⟨i - 1, by omega, by omega⟩]
    · rw [if_neg ha]

/-- The operand read answers the bytes in memory, or raises OutOfBoundsAccess because one lies past it. -/
theorem readOperands_cases (n a : Nat) (s : State) :
    (∃ ops, readOperands n a s = .ok ops ∧ ops.length = n ∧ a + n ≤ max a s.cfg.memCapacity ∧
      ∀ i (h : i < ops.length), ops[i] = Memory.read s.mem (a + i)) ∨
    (readOperands n a s = .error .outOfBoundsAccess ∧ ∃ i < n, s.cfg.memCapacity ≤ a + i) := by
  by_cases h : ∃ i < n, s.cfg.memCapacity ≤ a + i
  · exact .inr ⟨readOperands_of_past h, h⟩
  · left
    have hall : ∀ i < n, a + i < s.cfg.memCapacity := fun i hi => by
      by_contra hc
      exact h ⟨i, hi, by omega⟩
    refine ⟨(List.range n).map fun i => Memory.read s.mem (a + i), ?_, by simp, ?_, by simp⟩
    · have := readOperands_of_bytes ((List.range n).map fun i => Memory.read s.mem (a + i)) a s fun i hi => by
        simp only [List.length_map, List.length_range] at hi
        exact ⟨hall i hi, by simp⟩
      simpa using this
    · cases n with
      | zero => simp
      | succ n =>
        have := hall n (by omega)
        omega

/-- The bytes of `i` lie in memory at pc. -/
def HoldsAtPc (i : Instr) (s : State) : Prop :=
  ∀ n (h : n < (encode i).length), s.pc + n < s.cfg.memCapacity ∧ Memory.read s.mem (s.pc + n) = (encode i)[n]

/-- The fetch of an instruction whose bytes lie at pc gives it. -/
theorem fetch_of_holds {i : Instr} {s : State} (h : HoldsAtPc i s) : fetch s = .ok i := by
  obtain ⟨ops, he, hl, hb⟩ := encode_eq_cons i
  have h0 := h 0 (by simp [he])
  have hops := readOperands_of_bytes ops (s.pc + 1) s fun n hn => by
    have := h (n + 1) (by simpa [he] using hn)
    simpa [he, Nat.add_assoc, Nat.add_comm 1 n] using this
  have hop : Memory.read s.mem s.pc = i.mnemonic.opcode := by simpa [he] using h0.2
  rw [fetch, memRead, if_pos (by simpa using h0.1)]
  simp only [hop, decodeOpcode_opcode, ← hl, hops, hb]

/-- What the fetch phases answer (R82, R83, R84), the fault causes in the order of the phases. -/
theorem fetch_cases (s : State) :
    (fetch s = .error .outOfBoundsAccess ∧ s.cfg.memCapacity ≤ s.pc) ∨
    (fetch s = .error .invalidOpcode ∧ s.pc < s.cfg.memCapacity ∧ decodeOpcode (Memory.read s.mem s.pc) = none) ∨
    (∃ m, decodeOpcode (Memory.read s.mem s.pc) = some m ∧ fetch s = .error .outOfBoundsAccess ∧
      s.pc < s.cfg.memCapacity ∧ ∃ i < m.operandCount, s.cfg.memCapacity ≤ s.pc + 1 + i) ∨
    (∃ i, fetch s = .ok i ∧ HoldsAtPc i s) := by
  by_cases hpc : s.pc < s.cfg.memCapacity
  · have hr : memRead s.pc s = .ok (Memory.read s.mem s.pc) := by rw [memRead, if_pos hpc]
    cases hd : decodeOpcode (Memory.read s.mem s.pc) with
    | none => exact .inr (.inl ⟨by simp [fetch, hr, hd], hpc, rfl⟩)
    | some m =>
      rcases readOperands_cases m.operandCount (s.pc + 1) s with ⟨ops, ho, hl, hb, hv⟩ | ⟨ho, hpast⟩
      · refine .inr (.inr (.inr ⟨m.build ops, by simp [fetch, hr, hd, ho], ?_⟩))
        have henc : encode (m.build ops) = m.opcode :: ops := by
          match m, ops, hl with
          | .hlt, [], _ | .ret, [], _ => rfl
          | .push, [_], _ | .pop, [_], _ | .prn, [_], _ | .call, [_], _ | .jmp, [_], _ | .jeq, [_], _
          | .jne, [_], _ | .not, [_], _ => rfl
          | .ldi, [_, _], _ | .add, [_, _], _ | .sub, [_, _], _ | .mul, [_, _], _ | .div, [_, _], _
          | .mod, [_, _], _ | .cmp, [_, _], _ | .and, [_, _], _ | .or, [_, _], _ | .xor, [_, _], _
          | .shl, [_, _], _ | .shr, [_, _], _ => rfl
        intro n hn
        simp only [henc, List.length_cons] at hn ⊢
        cases n with
        | zero => exact ⟨by simpa using hpc, by simpa using eq_opcode_of_decodeOpcode hd⟩
        | succ n =>
          refine ⟨by omega, ?_⟩
          rw [List.getElem_cons_succ, hv n (by omega)]
          congr 1
          omega
      · exact .inr (.inr (.inl ⟨m, rfl, by simp [fetch, hr, hd, ho], hpc, hpast⟩))
  · exact .inl ⟨by simp [fetch, memRead, hpc], by omega⟩

/-- A step of a block that is not Running changes nothing (R80). -/
theorem step_of_terminal {s : State} (h : s.loop ≠ .running) : step s = .next s := by
  cases hl : s.loop with
  | running => exact absurd hl h
  | halted => simp [step, loopStep, hl]
  | faulted k => simp [step, loopStep, hl]

theorem step_of_running {s : State} (h : s.loop = .running) : step s = cycle s := by
  simp [step, loopStep, h]

/-- The faults of the fetch phases with their causes. -/
def FetchRaises (s : State) (k : Fault) : Prop :=
  (k = .outOfBoundsAccess ∧ s.cfg.memCapacity ≤ s.pc) ∨
  (k = .invalidOpcode ∧ s.pc < s.cfg.memCapacity ∧ decodeOpcode (Memory.read s.mem s.pc) = none) ∨
  (k = .outOfBoundsAccess ∧ s.pc < s.cfg.memCapacity ∧ ∃ m, decodeOpcode (Memory.read s.mem s.pc) = some m ∧
    ∃ i < m.operandCount, s.cfg.memCapacity ≤ s.pc + 1 + i)

/-- A Running step takes a fault of the fetch, or is `exec` of the instruction whose bytes lie at pc. -/
theorem step_running_cases {s : State} (h : s.loop = .running) :
    (∃ k, FetchRaises s k ∧ step s = .next (takeFault k s)) ∨ (∃ i, HoldsAtPc i s ∧ step s = exec i s) := by
  rw [step_of_running h]
  rcases fetch_cases s with ⟨hf, hc⟩ | ⟨hf, hc⟩ | ⟨m, hd, hf, hpc, hc⟩ | ⟨i, hf, hc⟩
  · exact .inl ⟨_, .inl ⟨rfl, hc⟩, by simp [cycle, hf]⟩
  · exact .inl ⟨_, .inr (.inl ⟨rfl, hc⟩), by simp [cycle, hf]⟩
  · exact .inl ⟨_, .inr (.inr ⟨rfl, hpc, m, hd, hc⟩), by simp [cycle, hf]⟩
  · exact .inr ⟨i, hc, by simp [cycle, hf]⟩

/-- Everything a step that answers a next state can do. -/
theorem step_next_cases {s t : State} (h : step s = .next t) :
    (s.loop ≠ .running ∧ t = s) ∨
    (s.loop = .running ∧ ∃ k, FetchRaises s k ∧ t = takeFault k s) ∨
    (s.loop = .running ∧ ∃ i, HoldsAtPc i s ∧ exec i s = .next t) := by
  by_cases hl : s.loop = .running
  · rcases step_running_cases hl with ⟨k, hk, hs⟩ | ⟨i, hi, hs⟩
    · rw [hs] at h
      exact .inr (.inl ⟨hl, k, hk, by simpa using h.symm⟩)
    · rw [hs] at h
      exact .inr (.inr ⟨hl, i, hi, h⟩)
  · rw [step_of_terminal hl] at h
    exact .inl ⟨hl, by simpa using h.symm⟩

end Sys2Proof.Machine
end

