-- ==== Sys2Proof/Laws/PerInstr.lean ====
section
/-! SUPPORT. One statement about every instruction as syntax, one lemma per constructor. -/

namespace Sys2Proof.Laws.EncodingShape

/-- 30_encoding.md R60, R61, R64: the encoding is the opcode byte and the declared operand bytes; the opcode byte names
the instruction, its bits 7-6 give the operand count and its bit 4 the control-flow class. -/
def Statement (i : Instr) : Prop :=
  ∃ b ops, encode i = b :: ops ∧ decodeOpcode b = some i.mnemonic ∧ ops.length = i.mnemonic.operandCount ∧
    b.toNat / 64 = i.mnemonic.operandCount ∧ b.getLsbD 4 = i.mnemonic.controlFlow

theorem hlt : Statement .hlt := ⟨_, _, rfl, rfl, rfl, rfl, rfl⟩
theorem ret : Statement .ret := ⟨_, _, rfl, rfl, rfl, rfl, rfl⟩
theorem push (r : Byte) : Statement (.push r) := ⟨_, _, rfl, rfl, rfl, rfl, rfl⟩
theorem pop (r : Byte) : Statement (.pop r) := ⟨_, _, rfl, rfl, rfl, rfl, rfl⟩
theorem prn (r : Byte) : Statement (.prn r) := ⟨_, _, rfl, rfl, rfl, rfl, rfl⟩
theorem call (r : Byte) : Statement (.call r) := ⟨_, _, rfl, rfl, rfl, rfl, rfl⟩
theorem jmp (r : Byte) : Statement (.jmp r) := ⟨_, _, rfl, rfl, rfl, rfl, rfl⟩
theorem jeq (r : Byte) : Statement (.jeq r) := ⟨_, _, rfl, rfl, rfl, rfl, rfl⟩
theorem jne (r : Byte) : Statement (.jne r) := ⟨_, _, rfl, rfl, rfl, rfl, rfl⟩
theorem not (r : Byte) : Statement (.not r) := ⟨_, _, rfl, rfl, rfl, rfl, rfl⟩
theorem ldi (r imm : Byte) : Statement (.ldi r imm) := ⟨_, _, rfl, rfl, rfl, rfl, rfl⟩
theorem add (a b : Byte) : Statement (.add a b) := ⟨_, _, rfl, rfl, rfl, rfl, rfl⟩
theorem sub (a b : Byte) : Statement (.sub a b) := ⟨_, _, rfl, rfl, rfl, rfl, rfl⟩
theorem mul (a b : Byte) : Statement (.mul a b) := ⟨_, _, rfl, rfl, rfl, rfl, rfl⟩
theorem div (a b : Byte) : Statement (.div a b) := ⟨_, _, rfl, rfl, rfl, rfl, rfl⟩
theorem mod (a b : Byte) : Statement (.mod a b) := ⟨_, _, rfl, rfl, rfl, rfl, rfl⟩
theorem cmp (a b : Byte) : Statement (.cmp a b) := ⟨_, _, rfl, rfl, rfl, rfl, rfl⟩
theorem and (a b : Byte) : Statement (.and a b) := ⟨_, _, rfl, rfl, rfl, rfl, rfl⟩
theorem or (a b : Byte) : Statement (.or a b) := ⟨_, _, rfl, rfl, rfl, rfl, rfl⟩
theorem xor (a b : Byte) : Statement (.xor a b) := ⟨_, _, rfl, rfl, rfl, rfl, rfl⟩
theorem shl (a b : Byte) : Statement (.shl a b) := ⟨_, _, rfl, rfl, rfl, rfl, rfl⟩
theorem shr (a b : Byte) : Statement (.shr a b) := ⟨_, _, rfl, rfl, rfl, rfl, rfl⟩

end Sys2Proof.Laws.EncodingShape
end

