-- ==== Sys2Proof/Tests/Slice0.lean ====
section
/-! SUPPORT. Tests of the model and witnesses of the statements' hypotheses. Every expected result is transcribed from
spec/95_test_vectors.md (its row id stands at the test) or worked out by hand from the rule named there. -/

namespace Sys2Proof.Tests

open Sys2Proof.Machine Sys2Proof.Claims

/-- A constructed block with pc, the bytes at pc, some registers, FL and some memory cells set. -/
def start (pc : Nat) (code : List Byte) (regs : List (RegIndex × Byte) := []) (fl : FlagBits := 0)
    (cells : List Host.Cell := []) (cfg : Config := Config.default) : State :=
  let s := State.construct cfg
  { s with
    pc := pc
    fl := fl
    regs := regs.foldl (fun v p => v.set p.1 p.2) s.regs
    mem := storeBytes pc code (cells.foldl (fun m c => Memory.write m c.1 c.2) []) }

/-- The outcome is a next state with the property. -/
def gives (o : Host.Outcome State Fault Refusal) (p : State → Bool) : Bool :=
  match o with
  | .next t => p t
  | _ => false

/-- The step faults with `k` and pc is unchanged. -/
def faults (s : State) (k : Fault) : Bool := gives (step s) fun t => t.loop == .faulted k && t.pc == s.pc

/-- The step is `Refused(SpOperand)`. -/
def refuses (s : State) : Bool :=
  match step s with
  | .refused .spOperand => true
  | _ => false

/-- The memory of 95_test_vectors.md TS9. -/
def small : Config := { Config.default with memCapacity := 0x70, stackTop := 0x70 }

/-- The policy of 95_test_vectors.md TS13 to TS16. -/
def sequential : Config := { Config.default with spPolicy := .sequential }

/-! ### Well-formedness refuses a register operand of 8 or more in every place (30_encoding.md R68, R72) -/

theorem test_wellFormed_refuses_one_operand :
    Instr.wellFormed (.push 8) = false ∧ Instr.wellFormed (.pop 8) = false ∧ Instr.wellFormed (.prn 9) = false ∧
    Instr.wellFormed (.call 8) = false ∧ Instr.wellFormed (.jmp 255) = false ∧ Instr.wellFormed (.jeq 8) = false ∧
    Instr.wellFormed (.jne 8) = false ∧ Instr.wellFormed (.not 8) = false ∧
    Instr.wellFormed (.ldi 8 1) = false := by decide

theorem test_wellFormed_refuses_first_operand :
    Instr.wellFormed (.add 8 0) = false ∧ Instr.wellFormed (.sub 8 0) = false ∧ Instr.wellFormed (.mul 8 0) = false ∧
    Instr.wellFormed (.div 8 1) = false ∧ Instr.wellFormed (.mod 8 0) = false ∧ Instr.wellFormed (.cmp 9 0) = false ∧
    Instr.wellFormed (.and 8 0) = false ∧ Instr.wellFormed (.or 8 0) = false ∧ Instr.wellFormed (.xor 8 0) = false ∧
    Instr.wellFormed (.shl 8 0) = false ∧ Instr.wellFormed (.shr 8 0) = false := by decide

theorem test_wellFormed_refuses_second_operand :
    Instr.wellFormed (.add 0 8) = false ∧ Instr.wellFormed (.sub 0 8) = false ∧ Instr.wellFormed (.mul 0 8) = false ∧
    Instr.wellFormed (.div 0 8) = false ∧ Instr.wellFormed (.mod 0 8) = false ∧ Instr.wellFormed (.cmp 0 8) = false ∧
    Instr.wellFormed (.and 0 8) = false ∧ Instr.wellFormed (.or 0 8) = false ∧ Instr.wellFormed (.xor 0 8) = false ∧
    Instr.wellFormed (.shl 0 8) = false ∧ Instr.wellFormed (.shr 0 8) = false := by decide

theorem test_wellFormed_admits_the_last_register_and_every_immediate :
    Instr.wellFormed (.add 7 7) = true ∧ Instr.wellFormed (.ldi 7 255) = true ∧ Instr.wellFormed .ret = true := by
  decide

/-! ### Decoding: a word of every constructor, bit by bit from 30_encoding.md R61, R65, R66 -/

theorem test_decode_no_operand :
    decode [0b00000001] = .ok (.hlt, []) ∧ decode [0b00010001] = .ok (.ret, []) := ⟨rfl, rfl⟩

theorem test_decode_one_operand :
    decode [0b01000101, 0b00000001] = .ok (.push 1, []) ∧ decode [0b01000110, 0b00000010] = .ok (.pop 2, []) ∧
    decode [0b01000111, 0b00000011] = .ok (.prn 3, []) ∧ decode [0b01010000, 0b00000100] = .ok (.call 4, []) ∧
    decode [0b01010100, 0b00000101] = .ok (.jmp 5, []) ∧ decode [0b01010101, 0b00000110] = .ok (.jeq 6, []) ∧
    decode [0b01010110, 0b00000111] = .ok (.jne 7, []) ∧ decode [0b01101001, 0b00000000] = .ok (.not 0, []) :=
  ⟨rfl, rfl, rfl, rfl, rfl, rfl, rfl, rfl⟩

theorem test_decode_two_operands :
    decode [0b10000010, 0b00000001, 0b11110100] = .ok (.ldi 1 0xF4, []) ∧
    decode [0b10100000, 0b00000001, 0b00000010] = .ok (.add 1 2, []) ∧
    decode [0b10100001, 0b00000001, 0b00000010] = .ok (.sub 1 2, []) ∧
    decode [0b10100010, 0b00000001, 0b00000010] = .ok (.mul 1 2, []) ∧
    decode [0b10100011, 0b00000001, 0b00000010] = .ok (.div 1 2, []) ∧
    decode [0b10100100, 0b00000001, 0b00000010] = .ok (.mod 1 2, []) ∧
    decode [0b10100111, 0b00000001, 0b00000010] = .ok (.cmp 1 2, []) ∧
    decode [0b10101000, 0b00000001, 0b00000010] = .ok (.and 1 2, []) ∧
    decode [0b10101010, 0b00000001, 0b00000010] = .ok (.or 1 2, []) ∧
    decode [0b10101011, 0b00000001, 0b00000010] = .ok (.xor 1 2, []) ∧
    decode [0b10101100, 0b00000001, 0b00000010] = .ok (.shl 1 2, []) ∧
    decode [0b10101101, 0b00000001, 0b00000010] = .ok (.shr 1 2, []) :=
  ⟨rfl, rfl, rfl, rfl, rfl, rfl, rfl, rfl, rfl, rfl, rfl, rfl⟩

/-- The bytes after an instruction are left over; a cut-off or empty sequence and an illegal byte are rejected by name. -/
theorem test_decode_rest_and_rejections :
    decode [0x47, 0x00, 0x01] = .ok (.prn 0, [0x01]) ∧ decode [] = .error .noOpcode ∧
    decode [0xC2] = .error (.invalidOpcode 0xC2) ∧ decode [0x82, 0x00] = .error (.missingOperand .ldi) :=
  ⟨rfl, rfl, rfl, rfl⟩

/-- Bit 0 of a table word is bit 0 of the first byte; the bits above `nbits` are zero (operand bytes of zeros). -/
theorem test_decodeTableWord :
    decodeTableWord 24 0x080182 = some (.ldi 1 8) ∧ decodeTableWord 8 0xFF01 = some .hlt ∧
    decodeTableWord 8 0xA0 = some (.add 0 0) ∧ decodeTableWord 8 0x00 = none := by decide

/-! ### One step of each instruction -/

/-- TA22. -/
theorem test_not : gives (step (start 0 [0x69, 3] [(3, 0x0F)])) (fun t => t.reg 3 == 0xF0 && t.pc == 2) = true := by
  decide

/-- TA2. -/
theorem test_add_wraps : gives (step (start 0 [0xA0, 0, 1] [(0, 0xFF), (1, 1)]))
    (fun t => t.reg 0 == 0 && t.pc == 3 && t.fl == 0) = true := by decide

/-- TA3. -/
theorem test_add_same_register : gives (step (start 0 [0xA0, 2, 2] [(2, 0xC8)])) (fun t => t.reg 2 == 0x90) = true := by
  decide

/-- TA4. -/
theorem test_sub_wraps : gives (step (start 0 [0xA1, 0, 1] [(0, 5), (1, 7)]))
    (fun t => t.reg 0 == 0xFE && t.reg 1 == 7) = true := by decide

/-- TA9. -/
theorem test_mul : gives (step (start 0 [0xA2, 0, 1] [(0, 0x0F), (1, 0x11)])) (fun t => t.reg 0 == 0xFF) = true := by
  decide

/-- TA8. -/
theorem test_mul_low_byte : gives (step (start 0 [0xA2, 0, 1] [(0, 0x10), (1, 0x10)])) (fun t => t.reg 0 == 0) = true := by
  decide

/-- TA10. -/
theorem test_div : gives (step (start 0 [0xA3, 0, 1] [(0, 7), (1, 2)])) (fun t => t.reg 0 == 3) = true := by decide

/-- TA12. -/
theorem test_div_by_zero : faults (start 0 [0xA3, 0, 1] [(0, 9)]) .divisionByZero = true := by decide

/-- TA15. -/
theorem test_mod : gives (step (start 0 [0xA4, 0, 1] [(0, 7), (1, 3)])) (fun t => t.reg 0 == 1) = true := by decide

/-- TA17. -/
theorem test_mod_by_zero : faults (start 0 [0xA4, 0, 1] [(0, 0xFF)]) .divisionByZero = true := by decide

/-- TA18. -/
theorem test_and : gives (step (start 0 [0xA8, 0, 1] [(0, 0xCC), (1, 0xAA)])) (fun t => t.reg 0 == 0x88) = true := by
  decide

/-- TA19. -/
theorem test_or : gives (step (start 0 [0xAA, 0, 1] [(0, 0xCC), (1, 0xAA)])) (fun t => t.reg 0 == 0xEE) = true := by
  decide

/-- TA20. -/
theorem test_xor : gives (step (start 0 [0xAB, 0, 1] [(0, 0xCC), (1, 0xAA)])) (fun t => t.reg 0 == 0x66) = true := by
  decide

/-- TA24. -/
theorem test_shl : gives (step (start 0 [0xAC, 0, 1] [(0, 0x81), (1, 1)])) (fun t => t.reg 0 == 2) = true := by decide

/-- TA26. -/
theorem test_shl_by_width : gives (step (start 0 [0xAC, 0, 1] [(0, 1), (1, 8)])) (fun t => t.reg 0 == 0) = true := by
  decide

/-- TA28. -/
theorem test_shr : gives (step (start 0 [0xAD, 0, 1] [(0, 0x80), (1, 7)])) (fun t => t.reg 0 == 1) = true := by decide

/-- TA30. -/
theorem test_shr_past_width : gives (step (start 0 [0xAD, 0, 1] [(0, 0xFF), (1, 0xC8)])) (fun t => t.reg 0 == 0) = true := by
  decide

/-- TA32. -/
theorem test_cmp_replaces_flags : gives (step (start 0 [0xA7, 0, 1] [(0, 5), (1, 5)] 0b100)) (fun t => t.fl == 0b001) = true := by
  decide

/-- TA34: unsigned. -/
theorem test_cmp_unsigned : gives (step (start 0 [0xA7, 0, 1] [(1, 0xFF)])) (fun t => t.fl == 0b100) = true := by decide

/-- TS3. -/
theorem test_push_last_cell : gives (step (start 10 [0x45, 0] [(0, 0x2A), (7, 1)]))
    (fun t => t.sp == 0 && Memory.read t.mem 0 == 0x2A && t.pc == 12) = true := by decide

/-- TS9. -/
theorem test_push_outside_memory : faults (start 0 [0x45, 0] [(0, 1), (7, 0x80)] 0 [] small) .outOfBoundsAccess = true := by
  decide

/-- TS4. -/
theorem test_pop : gives (step (start 0 [0x46, 1] [(7, 0xF3)] 0 [(0xF3, 0x2A)]))
    (fun t => t.reg 1 == 0x2A && t.sp == 0xF4 && Memory.read t.mem 0xF3 == 0x2A) = true := by decide

/-- TS5. -/
theorem test_pop_underflow : faults (start 0 [0x46, 1] [(1, 9), (7, 0xF4)]) .stackUnderflow = true := by decide

/-- TC4. -/
theorem test_call_last_return_address : gives (step (start 253 [0x50, 1] [(1, 0x0B), (7, 0xF4)]))
    (fun t => t.pc == 11 && t.sp == 0xF3 && Memory.read t.mem 0xF3 == 0xFF) = true := by decide

/-- TC3. -/
theorem test_call_return_address_too_big : faults (start 254 [0x50, 1] [(1, 0x0B), (7, 0xF4)]) .outOfBoundsAccess = true := by
  decide

/-- TC5. -/
theorem test_ret : gives (step (start 14 [0x11] [(7, 0xF3)] 0 [(0xF3, 8)])) (fun t => t.pc == 8 && t.sp == 0xF4) = true := by
  decide

/-- TC6. -/
theorem test_ret_underflow : faults (start 14 [0x11] [(7, 0xF4)]) .stackUnderflow = true := by decide

/-- TC8. -/
theorem test_jmp : gives (step (start 3 [0x54, 2] [(2, 0xC8)])) (fun t => t.pc == 200) = true := by decide

/-- TC16, in the memory of TS9: a target outside memory is accepted; the fetch of the next step is what faults. -/
theorem test_jmp_outside_memory : gives (step (start 3 [0x54, 0] [(0, 0x90)] 0 [] small))
    (fun t => t.pc == 0x90 && t.loop == .running && faults t .outOfBoundsAccess) = true := by decide

/-- TC9, TC10. -/
theorem test_jeq : gives (step (start 9 [0x55, 2] [(2, 0x14)] 0b001)) (fun t => t.pc == 20) = true ∧
    gives (step (start 9 [0x55, 2] [(2, 0x14)] 0b100)) (fun t => t.pc == 11) = true := by decide

/-- TC15. -/
theorem test_jeq_checks_index_when_not_taken : faults (start 9 [0x55, 8]) .outOfBoundsAccess = true := by decide

/-- TC14, TC13. -/
theorem test_jne : gives (step (start 15 [0x56, 3] [(3, 9)])) (fun t => t.pc == 9) = true ∧
    gives (step (start 15 [0x56, 3] [(3, 9)] 0b001)) (fun t => t.pc == 17) = true := by decide

/-- TL2. -/
theorem test_ldi : gives (step (start 0 [0x82, 7, 0xF4])) (fun t => t.sp == 0xF4 && t.pc == 3) = true := by decide

/-- TE11. -/
theorem test_ldi_at_end : gives (step (start 253 [0x82, 0, 1]))
    (fun t => t.reg 0 == 1 && t.pc == 256 && faults t .outOfBoundsAccess) = true := by decide

/-- TL4. -/
theorem test_prn : gives (step (start 3 [0x47, 0] [(0, 8)])) (fun t => t.out == [8] && t.pc == 5) = true := by decide

/-- TE10. -/
theorem test_hlt_last_cell :
    gives (step (start 3 [0x01] [] 0 [] { Config.default with memCapacity := 4, stackTop := 4 }))
      (fun t => t.loop == .halted) = true := by decide

/-! ### SP as the operand -/

/-- TS10, TS11, TS12. -/
theorem test_sp_operand_refused : refuses (start 0 [0x45, 7] [(7, 0xF4)]) = true ∧
    refuses (start 0 [0x46, 7] [(7, 0xF3)] 0 [(0xF3, 0x10)]) = true ∧ refuses (start 6 [0x50, 7] [(7, 0xF4)]) = true := by
  decide

/-- TS13, TS14, TS15. -/
theorem test_sp_operand_sequential :
    gives (step (start 0 [0x45, 7] [(7, 0xF4)] 0 [] sequential))
      (fun t => t.sp == 0xF3 && Memory.read t.mem 0xF3 == 0xF3) = true ∧
    gives (step (start 0 [0x46, 7] [(7, 0xF3)] 0 [(0xF3, 0x10)] sequential)) (fun t => t.sp == 0x11 && t.pc == 2) = true ∧
    gives (step (start 6 [0x50, 7] [(7, 0xF4)] 0 [] sequential))
      (fun t => t.pc == 0xF3 && t.sp == 0xF3 && Memory.read t.mem 0xF3 == 8) = true := by decide

/-! ### Fetch, faults, terminal states, host commands -/

/-- TE1, TE3, TE4, TE8. -/
theorem test_illegal_opcodes : faults (start 0 [0x00]) .invalidOpcode = true ∧ faults (start 0 [0xC2]) .invalidOpcode = true ∧
    faults (start 0 [0x65] [(0, 1)]) .invalidOpcode = true ∧ faults (start 255 [0x00]) .invalidOpcode = true := by decide

/-- TE6, TE7, TE9. -/
theorem test_bytes_past_memory : faults (start 254 [0x82, 0]) .outOfBoundsAccess = true ∧
    faults (start 255 [0x47]) .outOfBoundsAccess = true ∧ faults (start 256 []) .outOfBoundsAccess = true := by decide

/-- TA36, TA37, TA38: the index check comes before the zero divisor. -/
theorem test_register_index_checks : faults (start 0 [0xA0, 0, 8] [(0, 1)]) .outOfBoundsAccess = true ∧
    faults (start 0 [0xA7, 9, 0] [] 0b100) .outOfBoundsAccess = true ∧
    faults (start 0 [0xA3, 8, 1]) .outOfBoundsAccess = true := by decide

/-- The block of P7 after its first step. -/
def stopped : State := takeFault .invalidOpcode State.reset

/-- TT2. -/
theorem test_faulted_is_terminal : gives (step stopped) (fun t => t == stopped) = true := by decide

/-- TH2, TH4, TH5, TH6, TH7. -/
theorem test_host_commands :
    load [1, 1, 1, 1, 1] (start 0 [] [] 0 [] { Config.default with memCapacity := 4, stackTop := 4 }) =
      .error .programTooLarge ∧
    load [0x82, 0, 8] (start 0 [] [] 0 [(3, 0x47)]) = .ok (start 0 [0x82, 0, 8, 0x47]) ∧
    memoryRead 256 State.reset = .error .outOfBoundsAccess ∧
    memoryWrite 0x10 0x47 State.reset = .ok (start 0x10 [0x47] |>.setPc 0) ∧
    registerRead 8 State.reset = .error .outOfBoundsAccess := ⟨rfl, rfl, rfl, rfl, rfl⟩

/-- TT3, and R161's "A step that halts or faults counts as one of the B". -/
theorem test_budget : runBudget 0 (start 0 [0x01]) = (.cycleBudgetExceeded, start 0 [0x01]) ∧
    (runBudget 1 (start 0 [0x01])).1 = .halted := by decide

/-- A cell that is written back to 0 is not listed, so equal memories are equal data (20_memory.md R49). -/
theorem test_memory_is_canonical : Memory.write (Memory.write (Memory.write [] 5 1) 3 2) 5 0 = [(3, 2)] ∧
    Memory.write (Memory.write [] 5 1) 3 2 = [(3, 2), (5, 1)] ∧ Memory.wf State.reset.mem := by decide

/-- A table word placed in the reset state is the first instruction that runs; past the end nothing is placed. -/
theorem test_withFetchWord : gives (step (State.reset.withFetchWord 24 0x080082)) (fun t => t.reg 0 == 8) = true ∧
    ((start 255 []).withFetchWord 24 0x080082).mem = [(255, 0x82)] := by decide

/-! ### Witnesses: for every statement with hypotheses, states and operands that meet them, clause by clause -/

/-- The bytes of `i` are in memory at pc, as a check. -/
def placed (i : Instr) (s : State) : Bool :=
  (List.range 3).all fun n =>
    match (encode i)[n]? with
    | none => true
    | some b => decide (s.pc + n < s.cfg.memCapacity) && Memory.read s.mem (s.pc + n) == b

theorem instrAtPc_of_placed {i : Instr} {s : State} (h : placed i s = true) : InstrAtPc i s := by
  intro n b hb
  have hn : n < 3 := by
    have hl : (encode i).length ≤ 3 := by cases i <;> simp [encode]
    exact Nat.lt_of_lt_of_le (List.getElem?_eq_some_iff.1 hb).1 hl
  have := List.all_eq_true.1 h n (List.mem_range.2 hn)
  simpa [hb] using this

/-- HLT at address 0. -/
def atHlt : State := start 0 [0x01]

/-- The block after P1's last step. -/
def halted : State := atHlt.halt

theorem blockInv_of {s : State} (h1 : s.cfg.Valid) (h2 : Memory.wf s.mem) (h3 : ∀ c ∈ s.mem, c.1 < s.cfg.memCapacity)
    (h4 : FlagBits.atMostOne s.fl) (h5 : s.pc ≤ 256) (h6 : s.loop = .running) : BlockInv s :=
  ⟨h1, h2, h3, h4, fun _ => h5, by simp [h6]⟩

theorem atHlt_inv : BlockInv atHlt := blockInv_of (by decide) (by decide) (by decide) (by decide) (by decide) rfl

theorem witness_ConstructionGivesTheResetTable : 255 < Config.default.memCapacity ∧ Config.default.memCapacity ≤ 256 ∧
    ∃ t, load [] State.reset = .ok t := ⟨by decide, by decide, _, rfl⟩

theorem witness_ConstructionMeetsTheInvariant : Config.default.Valid ∧
    Config.Valid { memCapacity := 1, stackTop := 1, flagsReset := 0b100, spPolicy := .sequential } ∧
    Config.Valid { memCapacity := 256, stackTop := 255, flagsReset := 0b010, spPolicy := .refuse } := by decide

theorem witness_EveryStepKeepsTheInvariant : BlockInv atHlt ∧ ∃ t, step atHlt = .next t := ⟨atHlt_inv, _, rfl⟩

theorem witness_HostCommandsKeepTheInvariant : BlockInv atHlt ∧ (∃ t, load [0x11] atHlt = .ok t) ∧
    (∃ t, memoryWrite 255 1 atHlt = .ok t) ∧ ∃ t, registerWrite 7 0xF4 atHlt = .ok t :=
  ⟨atHlt_inv, ⟨_, rfl⟩, ⟨_, rfl⟩, _, rfl⟩

theorem witness_ReachableStatesMeetTheInvariant : Reachable State.reset ∧ Reachable atHlt :=
  ⟨.construct _ (by decide), .load [0x01] (.construct Config.default (by decide)) rfl⟩

theorem witness_DecodeAndEncodeAgree : decode [0x82, 0, 8, 0x47] = .ok (.ldi 0 8, [0x47]) := rfl

theorem witness_OpcodeMapIsTheTable : ((0x50 : Byte), Mnemonic.call, 1, true) ∈ opcodeMap := by decide

theorem witness_IllegalOpcodesFault : (0xC0 : Byte).toNat / 64 = 3 ∧ (0xFF : Byte).toNat / 64 = 3 ∧
    (start 255 [0x00]).loop = .running ∧ (start 255 [0x00]).pc < (start 255 [0x00]).cfg.memCapacity ∧
    IllegalOpcode (Memory.read (start 255 [0x00]).mem (start 255 [0x00]).pc) :=
  ⟨by decide, by decide, rfl, by decide, .inl (by decide)⟩

theorem witness_LengthIsInTheOpcodeByte : encode (.call 3) = 0x50 :: [3] ∧ decodeOpcode 0xC0 = none := ⟨rfl, rfl⟩

theorem witness_FetchPastMemoryFaults : fetch (start 255 [0x01]) = .ok .hlt ∧
    (start 256 []).loop = .running ∧ (start 256 []).cfg.memCapacity ≤ (start 256 []).pc :=
  ⟨rfl, rfl, by decide⟩

/-- The first operand byte outside (TE7), and only the second (TE6). -/
theorem witness_OperandReadPastMemoryFaults :
    (let s := start 255 [0x47]
     s.loop = .running ∧ s.pc < s.cfg.memCapacity ∧ decodeOpcode (Memory.read s.mem s.pc) = some .prn ∧
      1 ≤ Mnemonic.prn.operandCount ∧ s.cfg.memCapacity ≤ s.pc + 1) ∧
    (let s := start 254 [0x82, 0]
     s.loop = .running ∧ s.pc < s.cfg.memCapacity ∧ decodeOpcode (Memory.read s.mem s.pc) = some .ldi ∧
      2 ≤ Mnemonic.ldi.operandCount ∧ s.cfg.memCapacity ≤ s.pc + 2 ∧ s.pc + 1 < s.cfg.memCapacity) := by decide

theorem witness_StepRunsTheDecodedInstruction : (start 253 [0x82, 0, 1]).loop = .running ∧
    InstrAtPc (.ldi 0 1) (start 253 [0x82, 0, 1]) := ⟨rfl, instrAtPc_of_placed (by decide)⟩

theorem witness_StepsOnlyWhenRunning : atHlt.loop = .running ∧ (∃ t, step atHlt = .next t) ∧ halted.loop ≠ .running ∧
    stopped.loop ≠ .running := ⟨rfl, ⟨_, rfl⟩, by decide, by decide⟩

theorem witness_TerminalStatesArePermanent : stopped.loop ≠ .running ∧ (∃ t, load [0x01] stopped = .ok t) ∧
    (∃ t, memoryWrite 255 1 stopped = .ok t) ∧ ∃ t, registerWrite 7 1 stopped = .ok t :=
  ⟨by decide, ⟨_, rfl⟩, ⟨_, rfl⟩, _, rfl⟩

/-- The fault of a handler that would have written (TS9), not only a fault of the fetch. -/
theorem witness_FaultsArePrecise : ∃ s t, s.loop = .running ∧ step s = .next t ∧ t.loop = .faulted .outOfBoundsAccess :=
  ⟨start 0 [0x45, 0] [(0, 1), (7, 0x80)] 0 [] small, _, rfl, rfl, rfl⟩

/-- The four clauses: nothing to fetch, an illegal byte, an operand past the end, and an instruction with a fault
(CALL at 254 with SP = 0: the return address comes first) and without one. -/
theorem witness_FirstFaultInOrderIsReported :
    (small.Valid ∧ Config.default.Valid ∧ (start 256 []).cfg.memCapacity ≤ (start 256 []).pc) ∧
    decodeOpcode (Memory.read (start 255 []).mem 255) = none ∧
    (decodeOpcode (Memory.read (start 254 [0x82]).mem 254) = some .ldi ∧ 256 ≤ 254 + Mnemonic.ldi.operandCount) ∧
    (InstrAtPc (.call 1) (start 254 [0x50, 1]) ∧ ¬ SpOperandForm (.call 1) ∧
      firstFault (.call 1) (start 254 [0x50, 1]) = some .outOfBoundsAccess ∧
      firstFault (.call 1) (start 253 [0x50, 1]) = some .stackOverflow) ∧
    (InstrAtPc .hlt atHlt ∧ ¬ SpOperandForm .hlt ∧ firstFault .hlt atHlt = none) :=
  ⟨by decide, by decide, by decide, ⟨instrAtPc_of_placed (by decide), by simp [SpOperandForm], by decide, by decide⟩,
    instrAtPc_of_placed (by decide), by simp [SpOperandForm], by decide⟩

theorem witness_FaultKindsHaveTheirCauses :
    (∃ s t, s.loop = .running ∧ step s = .next t ∧ t.loop = .faulted .stackUnderflow) ∧
    (∃ s k, load [1, 1, 1, 1, 1] s = .error k) ∧ (∃ k, memoryRead 256 State.reset = .error k) ∧
    (∃ k, memoryWrite 256 1 State.reset = .error k) ∧ (∃ k, registerRead 8 State.reset = .error k) ∧
    ∃ k, registerWrite 8 1 State.reset = .error k :=
  ⟨⟨start 14 [0x11] [(7, 0xF4)], _, rfl, rfl, rfl⟩,
    ⟨start 0 [] [] 0 [] { Config.default with memCapacity := 4, stackTop := 4 }, _, rfl⟩, ⟨_, rfl⟩, ⟨_, rfl⟩, ⟨_, rfl⟩, _, rfl⟩

/-- Both sides of the equivalence occur: a zero and a nonzero divisor, the first and the last pop there is. -/
theorem witness_SafeStepsAreExactlyThese :
    (∀ s ∈ [start 0 [0xA3, 0, 1] [(1, 2)], start 0 [0xA3, 0, 1]],
      s.cfg.Valid ∧ s.loop = .running ∧ placed (.div 0 1) s = true) ∧
    (∀ s ∈ [start 0 [0x46, 1] [(7, 0xF3)], start 0 [0x46, 1] [(7, 0xF4)]],
      s.cfg.Valid ∧ s.loop = .running ∧ placed (.pop 1) s = true) := by decide

/-- The index clause of the statements of ADD, SUB, MUL, AND, OR, XOR, SHL, SHR and CMP: 8 is the first index that is
refused, in either place; 7 is an index. -/
theorem witness_TwoRegister : (8 ≤ (8 : Byte).toNat ∨ 8 ≤ (0 : Byte).toNat) ∧ (8 ≤ (7 : Byte).toNat ∨ 8 ≤ (8 : Byte).toNat) ∧
    ¬ (8 ≤ (7 : Byte).toNat ∨ 8 ≤ (7 : Byte).toNat) := by decide

/-- The divisor clauses of DIV and MOD, for two registers and for one (TA13, TA14). -/
theorem witness_TwoRegisterDivide : (start 0 [] [(1, 1)]).reg 1 ≠ 0 ∧ (start 0 []).reg 1 = 0 ∧
    (start 0 [] [(4, 0x0D)]).reg 4 ≠ 0 ∧ (8 ≤ (8 : Byte).toNat ∨ 8 ≤ (1 : Byte).toNat) := by decide

/-- The index clause of the statements of NOT, PRN, LDI, JMP, JEQ, JNE, PUSH, POP and CALL. -/
theorem witness_OneRegister : 8 ≤ (8 : Byte).toNat ∧ 8 ≤ (255 : Byte).toNat ∧ ¬ 8 ≤ (7 : Byte).toNat := by decide

/-- Room at the lowest cell (TS3), none (TS2), and a write outside a smaller memory: SP = 0x71 is the first. -/
theorem witness_PushStoresBelowTheStackPointer : (0 : RegIndex) ≠ 7 ∧
    (let s := start 10 [] [(7, 1)]
     s.sp ≠ 0 ∧ s.sp.toNat - 1 < s.cfg.memCapacity) ∧
    (start 0 []).sp = 0 ∧
    (let s := start 0 [] [(7, 0x71)] 0 [] small
     s.sp ≠ 0 ∧ s.cfg.memCapacity ≤ s.sp.toNat - 1) := by decide

/-- The last item, the first SP without one, and, with STACK_TOP above MEM_CAPACITY, an item outside memory. -/
theorem witness_PopLoadsFromTheStackPointer : (1 : RegIndex) ≠ 7 ∧
    (let s := start 0 [] [(7, 0xF3)]
     s.sp.toNat < s.cfg.stackTop ∧ s.sp.toNat < s.cfg.memCapacity) ∧
    (let s := start 0 [] [(7, 0xF4)]
     s.cfg.stackTop ≤ s.sp.toNat) ∧
    (let s := start 0 [] [(7, 0x70)] 0 [] { small with stackTop := 0x80 }
     s.sp.toNat < s.cfg.stackTop ∧ s.cfg.memCapacity ≤ s.sp.toNat) := by decide

theorem witness_SpOperandFormsFollowThePolicy : State.reset.cfg.spPolicy = .refuse ∧
    (let s := start 253 [] [(7, 1)] 0 [] sequential
     s.cfg.spPolicy = .sequential ∧ s.pc + 2 ≤ 255 ∧ s.sp ≠ 0 ∧ s.sp.toNat - 1 < s.cfg.memCapacity ∧
      s.sp.toNat < s.cfg.stackTop ∧ s.sp.toNat < s.cfg.memCapacity) ∧
    (let s := start 0 [] [] 0 [] sequential
     s.cfg.spPolicy = .sequential ∧ s.pc + 2 ≤ 255 ∧ s.sp = 0) ∧
    (let s := start 254 [] [(7, 0xF4)] 0 [] sequential
     s.cfg.spPolicy = .sequential ∧ 255 < s.pc + 2 ∧ s.cfg.stackTop ≤ s.sp.toNat) ∧
    (let s := start 0 [] [(7, 0x71)] 0 [] { sequential with memCapacity := 0x70 }
     s.cfg.spPolicy = .sequential ∧ s.pc + 2 ≤ 255 ∧ s.sp ≠ 0 ∧ s.cfg.memCapacity ≤ s.sp.toNat - 1 ∧
      s.sp.toNat < s.cfg.stackTop ∧ s.cfg.memCapacity ≤ s.sp.toNat) ∧
    (Instr.prn 7 ≠ .push 7 ∧ Instr.prn 7 ≠ .pop 7 ∧ Instr.prn 7 ≠ .call 7) := by decide

theorem witness_RefusalChangesNoState : SpOperandForm (.push 7) ∧ (start 0 [0x45, 7]).loop = .running ∧
    (start 0 [0x45, 7]).cfg.spPolicy = .refuse ∧ InstrAtPc (.push 7) (start 0 [0x45, 7]) :=
  ⟨.inl rfl, rfl, rfl, instrAtPc_of_placed (by decide)⟩

/-- The ends of each clause's range of SP. -/
theorem witness_PushThenPopRestores : (2 : RegIndex) ≠ 7 ∧
    (∀ v ∈ [(1 : Byte), 0xF4],
      let s := start 0 [] [(7, v)]
      s.cfg.Valid ∧ 1 ≤ s.sp.toNat ∧ s.sp.toNat ≤ s.cfg.stackTop) ∧
    (start 0 []).sp = 0 ∧
    (∀ v ∈ [(0xF5 : Byte), 0xFF],
      let s := start 0 [] [(7, v)]
      s.cfg.Valid ∧ s.cfg.stackTop < s.sp.toNat ∧ s.sp.toNat ≤ s.cfg.memCapacity) := by decide

/-- 253 is the last address a CALL can return to from, 254 the first it cannot. -/
theorem witness_CallPushesTheReturnAddress : (1 : RegIndex) ≠ 7 ∧
    (let s := start 253 [] [(7, 0xF4)]
     s.pc + 2 ≤ 255 ∧ s.sp ≠ 0 ∧ s.sp.toNat - 1 < s.cfg.memCapacity) ∧
    255 < (start 254 []).pc + 2 ∧
    ((start 253 []).pc + 2 ≤ 255 ∧ (start 253 []).sp = 0) ∧
    (let s := start 6 [] [(7, 0x71)] 0 [] small
     s.pc + 2 ≤ 255 ∧ s.sp ≠ 0 ∧ s.cfg.memCapacity ≤ s.sp.toNat - 1) := by decide

theorem witness_RetPopsThePc :
    (let s := start 14 [] [(7, 0xF3)]
     s.sp.toNat < s.cfg.stackTop ∧ s.sp.toNat < s.cfg.memCapacity) ∧
    (let s := start 14 [] [(7, 0xF4)]
     s.cfg.stackTop ≤ s.sp.toNat) ∧
    (let s := start 14 [] [(7, 0x70)] 0 [] { small with stackTop := 0x80 }
     s.sp.toNat < s.cfg.stackTop ∧ s.cfg.memCapacity ≤ s.sp.toNat) := by decide

theorem witness_JmpGoesToTheRegister : (start 3 [0x54, 0] [(0, 3)]).loop = .running ∧
    InstrAtPc (.jmp (regByte 0)) (start 3 [0x54, 0] [(0, 3)]) ∧
    ((start 3 [0x54, 0] [(0, 3)]).reg 0).toNat = (start 3 [0x54, 0] [(0, 3)]).pc :=
  ⟨rfl, instrAtPc_of_placed (by decide), by decide⟩

/-- W10: the CALL of P3 and the state before its RET. -/
theorem witness_CallThenRetReturns :
    let s := start 6 [0x50, 1] [(1, 11), (7, 0xF4)]
    let u := start 14 [0x11] [(0, 42), (1, 11), (7, 0xF3)] 0 [(0xF3, 8)]
    s.cfg.Valid ∧ s.pc + 2 ≤ 255 ∧ 1 ≤ s.sp.toNat ∧ s.sp.toNat ≤ s.cfg.stackTop ∧
      gives (exec (.call (regByte 1)) s) (fun t => u.cfg == t.cfg && u.sp == t.sp &&
        Memory.read u.mem u.sp.toNat == Memory.read t.mem t.sp.toNat) = true := by decide

theorem witness_FlagsBelongToCmpJeqJne : (∃ t, exec (.add 0 1) State.reset = .next t) ∧
    (∀ a b, Instr.add 0 1 ≠ .cmp a b) ∧ (∀ r, Instr.add 0 1 ≠ .jeq r) ∧ (∀ r, Instr.add 0 1 ≠ .jne r) ∧
    (∃ t, load [0x01] State.reset = .ok t) ∧ (∃ t, memoryWrite 255 1 State.reset = .ok t) ∧
    (∃ t, registerWrite 7 1 State.reset = .ok t) ∧ (0b101 : FlagBits).getLsbD 0 = (0b001 : FlagBits).getLsbD 0 :=
  ⟨⟨_, rfl⟩, by simp, by simp, by simp, ⟨_, rfl⟩, ⟨_, rfl⟩, ⟨_, rfl⟩, by decide⟩

theorem witness_OutputGrowsOnlyByPrn : (∃ t, exec (.prn (regByte 0)) State.reset = .next t) ∧
    ((start 3 [0x47, 0]).loop = .running ∧ InstrAtPc (.prn (regByte 0)) (start 3 [0x47, 0]) ∧
      ∃ t, step (start 3 [0x47, 0]) = .next t) ∧ (∃ t, load [0x01] State.reset = .ok t) ∧
    (∃ t, memoryWrite 255 1 State.reset = .ok t) ∧ ∃ t, registerWrite 7 1 State.reset = .ok t :=
  ⟨⟨_, rfl⟩, ⟨rfl, instrAtPc_of_placed (by decide), _, rfl⟩, ⟨_, rfl⟩, ⟨_, rfl⟩, _, rfl⟩

/-- The memory next to the stored byte, an instruction that stores nothing, and two memories that agree at SP. -/
theorem witness_OnlyTheStackTouchesMemory :
    (∃ t, exec (.push 0) (start 0 [] [(7, 0xF4)]) = .next t ∧
      ¬ StoreAddress (.push 0) (start 0 [] [(7, 0xF4)]) 0xF4 ∧ ¬ StoreAddress (.push 0) (start 0 [] [(7, 0xF4)]) 0xF2) ∧
    ((∀ r, Instr.hlt ≠ .push r) ∧ (∀ r, Instr.hlt ≠ .call r) ∧ (∀ r, Instr.hlt ≠ .pop r) ∧ Instr.hlt ≠ .ret) ∧
    Memory.read [(0, 1), (0xF3, 2)] (start 0 [] [(7, 0xF3)]).sp.toNat =
      Memory.read (start 0 [] [(7, 0xF3)] 0 [(0xF3, 2)]).mem (start 0 [] [(7, 0xF3)]).sp.toNat :=
  ⟨⟨_, rfl, by simp only [StoreAddress]; decide, by simp only [StoreAddress]; decide⟩, by simp, by decide⟩

theorem witness_RegistersWrittenAreTheNamedOnes :
    (∃ t, exec (.pop 1) (start 0 [] [(7, 0xF3)]) = .next t) ∧ ¬ WritesRegister (.pop 1) 0 ∧ ¬ WritesRegister (.cmp 0 1) 7 :=
  ⟨⟨_, rfl⟩, by simp only [WritesRegister]; decide, by simp [WritesRegister]⟩

theorem witness_LoopStateAndParametersFrame : (∃ t, exec .hlt State.reset = .next t) ∧ (∃ t, step atHlt = .next t) ∧
    (∃ t, load [0x01] State.reset = .ok t) ∧ (∃ t, memoryWrite 255 1 State.reset = .ok t) ∧
    ∃ t, registerWrite 7 1 State.reset = .ok t := ⟨⟨_, rfl⟩, ⟨_, rfl⟩, ⟨_, rfl⟩, ⟨_, rfl⟩, _, rfl⟩

/-- Both classes; the first advance ends past the end of memory. -/
theorem witness_PcAdvanceRule :
    (∃ t, InstrAtPc (.ldi 0 1) (start 253 [0x82, 0, 1]) ∧ step (start 253 [0x82, 0, 1]) = .next t ∧ t.loop = .running ∧
      (Instr.ldi 0 1).mnemonic.controlFlow = false ∧ t.cfg.memCapacity ≤ t.pc) ∧
    (∃ t, InstrAtPc (.jeq 2) (start 9 [0x55, 2]) ∧ step (start 9 [0x55, 2]) = .next t ∧ t.loop = .running ∧
      (Instr.jeq 2).mnemonic.controlFlow = true) :=
  ⟨⟨_, instrAtPc_of_placed (by decide), rfl, rfl, rfl, by decide⟩, _, instrAtPc_of_placed (by decide), rfl, rfl, rfl⟩

theorem witness_MemoryAccessIsBoundsChecked : 255 < State.reset.cfg.memCapacity ∧ State.reset.cfg.memCapacity ≤ 256 := by
  decide

theorem witness_RegisterOperandsAreChecked : 8 ≤ (8 : Byte).toNat ∧ ¬ (Instr.add 7 8).WellFormed := by decide

theorem witness_LoadIsAllOrNothing :
    let s := start 0 [] [] 0 [] { Config.default with memCapacity := 4, stackTop := 4 }
    [1, 2, 3, (4 : Byte)].length ≤ s.cfg.memCapacity ∧ [1, 2, 3, (4 : Byte)][3]? = some 4 ∧
      [1, 2, 3, (4 : Byte)].length ≤ 4 ∧ s.cfg.memCapacity < [1, 2, 3, 4, (5 : Byte)].length := by decide

theorem witness_AccessorsAreBoundsChecked :
    255 < stopped.cfg.memCapacity ∧ stopped.cfg.memCapacity ≤ 256 ∧ 8 ≤ (8 : Nat) := by decide

/-- Each of the four ends occurs. -/
theorem witness_BudgetBoundsTheRun : (∃ t, runBudget 0 atHlt = (.cycleBudgetExceeded, t)) ∧
    (∃ t, runBudget 1 atHlt = (.halted, t)) ∧ (∃ t, runBudget 1 State.reset = (.faulted .invalidOpcode, t)) ∧
    ∃ t, runBudget 1 (start 0 [0x45, 7]) = (.refused .spOperand, t) := ⟨⟨_, rfl⟩, ⟨_, rfl⟩, ⟨_, rfl⟩, _, rfl⟩

theorem witness_EndedRunsAreDetermined : RunEnd.halted ≠ .cycleBudgetExceeded ∧
    ∃ t, runBudget 1 atHlt = (.halted, t) ∧ 1 ≤ 2 ∧ RunEnds none atHlt .halted t :=
  ⟨by decide, _, rfl, by decide, by decide, 1, rfl⟩

theorem witness_StepReportShowsTheInstruction : atHlt.loop = .running ∧ InstrAtPc .hlt atHlt ∧ halted.loop ≠ .running :=
  ⟨rfl, instrAtPc_of_placed (by decide), by decide⟩

/-- The pushed byte illegal; that of LDI with its operands past memory; that of PRN with its operand after it. -/
theorem witness_PushedOpcodeRunsNext :
    (let s := start 0 [0x45, 0] [(0, 0xFF), (7, 3)]
     s.loop = .running ∧ (0 : RegIndex) ≠ 7 ∧ InstrAtPc (.push (regByte 0)) s ∧ s.sp.toNat = s.pc + 3 ∧
      s.pc + 2 < s.cfg.memCapacity ∧ decodeOpcode (s.reg 0) = none) ∧
    (let s := start 252 [0x45, 0] [(0, 0x82), (7, 255)]
     s.loop = .running ∧ InstrAtPc (.push (regByte 0)) s ∧ s.sp.toNat = s.pc + 3 ∧ s.pc + 2 < s.cfg.memCapacity ∧
      decodeOpcode (s.reg 0) = some .ldi ∧ s.cfg.memCapacity ≤ s.pc + 2 + Mnemonic.ldi.operandCount) ∧
    (let s := start 0 [0x45, 0, 0, 5] [(0, 0x47), (7, 3)]
     s.loop = .running ∧ InstrAtPc (.push (regByte 0)) s ∧ s.sp.toNat = s.pc + 3 ∧ s.pc + 2 < s.cfg.memCapacity ∧
      encode (.prn 5) = s.reg 0 :: [5] ∧ s.pc + 3 < s.cfg.memCapacity ∧ Memory.read s.mem (s.pc + 3) = 5) :=
  ⟨⟨rfl, by decide, instrAtPc_of_placed (by decide), by decide, by decide, by decide⟩,
    ⟨rfl, instrAtPc_of_placed (by decide), by decide, by decide, by decide, by decide⟩,
    rfl, instrAtPc_of_placed (by decide), by decide, by decide, by decide, by decide, by decide⟩

end Sys2Proof.Tests
end

section
/-! PROOFS. 00_scope.md: bounds-checked memory access (R11) and register operands (R12). -/

namespace Sys2Proof.Machine

open Sys2Proof.Claims

/-! ### Memory access -/

theorem memRead_of_lt {a : Nat} {s : State} (h : a < s.cfg.memCapacity) :
    memRead a s = .ok (Memory.read s.mem a) := by
  rw [memRead, if_pos h]

theorem memRead_of_ge {a : Nat} {s : State} (h : s.cfg.memCapacity ≤ a) :
    memRead a s = .error .outOfBoundsAccess := by
  rw [memRead, if_neg h.not_gt]

theorem memWrite_of_lt {a : Nat} {s : State} (v : Byte) (h : a < s.cfg.memCapacity) :
    memWrite a v s = .ok { s with mem := Memory.write s.mem a v } := by
  rw [memWrite, if_pos h]

theorem memWrite_of_ge {a : Nat} {s : State} (v : Byte) (h : s.cfg.memCapacity ≤ a) :
    memWrite a v s = .error .outOfBoundsAccess := by
  rw [memWrite, if_neg h.not_gt]

/-- What `Memory.write` does, as the statements say it. -/
theorem storedAt_write (m : Memory) (a : Nat) (v : Byte) : StoredAt m (Memory.write m a v) a v :=
  ⟨Memory.read_write_same m a v, fun _ hne => Memory.read_write_other m v hne⟩

/-- Settles O53: each access is its branch of the bounds test, and a write in range stores the byte. -/
theorem memoryAccessIsBoundsChecked : Obligations.MemoryAccessIsBoundsChecked :=
  ⟨fun _ _ => memRead_of_lt, fun _ _ => memRead_of_ge,
    fun s a v h => ⟨_, storedAt_write s.mem a v, memWrite_of_lt v h⟩,
    fun _ _ v h => memWrite_of_ge v h⟩

/-! ### Register operands

An instruction with an operand byte that names no register is neither refused nor completed, and raises no fault but
OutOfBoundsAccess. -/

@[simp] theorem validReg_regByte (r : RegIndex) : validReg (regByte r) = true := by
  simp [validReg, regByte_toNat]

theorem validReg_pair_regByte (p q : RegIndex) : (validReg (regByte p) && validReg (regByte q)) = true := by
  simp

theorem Refuses.wellFormed {i : Instr} {s : State} (h : Refuses i s) : i.WellFormed := by
  obtain ⟨_, rfl | rfl | rfl⟩ := h <;> exact validReg_regByte spIndex

/-- Only an instruction whose register operands are all valid completes. -/
theorem Effect.wellFormed {i : Instr} {s t : State} (h : Effect i s t) : i.WellFormed := by
  cases i with
  | hlt | ret => rfl
  | push r | pop r | prn r | call r | jmp r | jeq r | jne r | not r | ldi r _ =>
    obtain ⟨p, rfl, _⟩ := h
    exact validReg_regByte p
  | add a b | sub a b | mul a b | div a b | mod a b | cmp a b | and a b | or a b | xor a b | shl a b | shr a b =>
    obtain ⟨p, q, rfl, rfl, _⟩ := h
    exact validReg_pair_regByte p q

/-- The index checks come before every other cause of a fault (R100, R152). -/
theorem Raises.eq_outOfBounds_of_not_wellFormed {i : Instr} {s : State} {k : Fault} (h : Raises i s k)
    (hi : ¬ i.WellFormed) : k = .outOfBoundsAccess := by
  cases i with
  | hlt | ret => exact absurd rfl hi
  | prn r | jmp r | jeq r | jne r | not r | ldi r _ => exact h.1
  | add a b | sub a b | mul a b | cmp a b | and a b | or a b | xor a b | shl a b | shr a b => exact h.1
  | push r | pop r | call r =>
    obtain ⟨hk, _⟩ | ⟨⟨p, rfl⟩, _⟩ := h
    · exact hk
    · exact absurd (validReg_regByte p) hi
  | div a b | mod a b =>
    obtain ⟨hk, _⟩ | ⟨p, q, rfl, rfl, _⟩ := h
    · exact hk
    · exact absurd (validReg_pair_regByte p q) hi

/-- Of the three ways `exec` can go, an invalid register operand leaves the fault. -/
theorem faults_outOfBounds_of_not_wellFormed {i : Instr} (s : State) (hi : ¬ i.WellFormed) :
    Faults i s .outOfBoundsAccess := by
  obtain ⟨hr, _⟩ | ⟨_, k, hk, ho⟩ | ⟨_, t, ht, _⟩ := exec_cases i s
  · exact absurd hr.wellFormed hi
  · obtain rfl := hk.eq_outOfBounds_of_not_wellFormed hi
    exact ho
  · exact absurd ht.wellFormed hi

/-- Settles O54: the index is the whole byte, and an instruction that is not well formed can only fault on it. -/
theorem registerOperandsAreChecked : Obligations.RegisterOperandsAreChecked :=
  ⟨fun r => ⟨regByte_toNat r, regIndex_regByte r⟩, fun _ => regIndex_of_ge,
    fun _ s hi => faults_outOfBounds_of_not_wellFormed s hi⟩

end Sys2Proof.Machine
end

section
/-! PROOFS. 10_state.md: the state after construction (R28, R36, R39), and what the host commands that succeed answer
(60_exceptions.md R159, R164, R165). -/

namespace Sys2Proof.Machine

/-! ### What a host command that succeeds changes -/

/-- `load` writes memory and nothing else (R159). -/
theorem load_ok {bytes : List Byte} {s t : State} (h : load bytes s = .ok t) :
    bytes.length ≤ s.cfg.memCapacity ∧ t = { s with mem := storeBytes 0 bytes s.mem } := by
  rw [load] at h
  split at h
  · next hlen => exact ⟨hlen, (Except.ok.inj h).symm⟩
  · cases h

/-- `memory_write` is the bounds-checked memory write (R164). -/
theorem memoryWrite_ok {a : Nat} {v : Byte} {s t : State} (h : memoryWrite a v s = .ok t) :
    a < s.cfg.memCapacity ∧ t = { s with mem := Memory.write s.mem a v } :=
  memWrite_ok h

/-- `register_write` writes one register and nothing else (R165). -/
theorem registerWrite_ok {idx : Nat} {v : Byte} {s t : State} (h : registerWrite idx v s = .ok t) :
    ∃ hidx : idx < 8, t = s.setReg ⟨idx, hidx⟩ v := by
  rw [registerWrite] at h
  split at h
  · next hidx => exact ⟨hidx, (Except.ok.inj h).symm⟩
  · cases h

/-! ### Construction -/

@[simp] theorem State.construct_reg (c : Config) (r : RegIndex) : (State.construct c).reg r = 0 :=
  Vector.getElem_replicate r.isLt

/-- Every cell of a constructed block reads as 0 (R36). -/
theorem memRead_construct_of_lt {c : Config} {a : Nat} (h : a < c.memCapacity) :
    memRead a (State.construct c) = .ok 0 :=
  memRead_of_lt (s := State.construct c) h

theorem memRead_construct_of_ge {c : Config} {a : Nat} (h : c.memCapacity ≤ a) :
    memRead a (State.construct c) = .error .outOfBoundsAccess :=
  memRead_of_ge (s := State.construct c) h

/-- Settles O1: R39's table row by row, the defaults of the reset state, and `load` by what it changes. -/
theorem constructionGivesTheResetTable : Obligations.ConstructionGivesTheResetTable := by
  refine ⟨fun c => ⟨State.construct_reg c, rfl, rfl, fun a => memRead_construct_of_lt,
    fun a => memRead_construct_of_ge, rfl, rfl, rfl⟩, rfl, fun bytes s t h => ?_⟩
  obtain ⟨_, rfl⟩ := load_ok h
  rfl

end Sys2Proof.Machine
end

section
/-! PROOFS. The three ways of `Outcomes` exclude each other and each names one answer, so that whichever is shown to
hold determines `exec`: this turns `exec_cases` into equations of `exec`, with no meaning unfolded. -/

namespace Sys2Proof.Machine

/-! ### The causes of a fault shut out its effect -/

theorem BadReg.not_regByte {p : RegIndex} {k : Fault} : ¬ BadReg (regByte p) k := by
  rintro ⟨_, hge⟩
  rw [regByte_toNat] at hge
  omega

theorem BadPair.not_regByte {p q : RegIndex} {k : Fault} : ¬ BadPair (regByte p) (regByte q) k := by
  rintro ⟨_, hge⟩
  rw [regByte_toNat, regByte_toNat] at hge
  omega

theorem PushRaises.not_room {s : State} {k : Fault} (h : PushRaises s k) : ¬ Room s := by
  rintro ⟨hsp, hlt⟩
  obtain ⟨_, h0⟩ | ⟨_, _, hge⟩ := h
  · exact hsp h0
  · omega

theorem PopRaises.not_item {s : State} {k : Fault} (h : PopRaises s k) : ¬ Item s := by
  rintro ⟨htop, hcap⟩
  obtain ⟨_, hge⟩ | ⟨_, _, hge⟩ := h <;> omega

theorem DivideRaises.not_effect {f : Byte → Byte → Byte} {a b : Byte} {s t : State} {k : Fault}
    (h : DivideRaises a b s k) : ¬ DivideEffect f a b s t := by
  rintro ⟨p, q, rfl, rfl, hq, _⟩
  obtain hbad | ⟨_, q', _, hqq, h0, _⟩ := h
  · exact hbad.not_regByte
  · exact hq (regByte_injective hqq ▸ h0)

/-- An instruction does not both raise and complete. -/
theorem Raises.not_effect {i : Instr} {s t : State} {k : Fault} (h : Raises i s k) : ¬ Effect i s t := by
  cases i with
  | hlt => exact h.elim
  | ret => exact fun he => PopRaises.not_item h he.1
  | prn r | jmp r | jeq r | jne r | not r | ldi r _ =>
    rintro ⟨p, rfl, _⟩
    exact BadReg.not_regByte h
  | push r =>
    rintro ⟨p, rfl, hroom, _⟩
    exact h.elim BadReg.not_regByte fun hp => hp.2.not_room hroom
  | pop r =>
    rintro ⟨p, rfl, hitem, _⟩
    exact h.elim BadReg.not_regByte fun hp => hp.2.not_item hitem
  | call r =>
    rintro ⟨p, rfl, hpc, hroom, _⟩
    obtain hbad | ⟨_, ⟨_, hbig⟩ | ⟨_, hpush⟩⟩ := h
    · exact hbad.not_regByte
    · omega
    · exact hpush.not_room hroom
  | add a b | sub a b | mul a b | cmp a b | and a b | or a b | xor a b | shl a b | shr a b =>
    rintro ⟨p, q, rfl, rfl, _⟩
    exact BadPair.not_regByte h
  | div a b | mod a b => exact DivideRaises.not_effect h

/-! ### One fault, one effect -/

theorem PushRaises.unique {s : State} {k k' : Fault} (h : PushRaises s k) (h' : PushRaises s k') : k = k' := by
  obtain ⟨rfl, h0⟩ | ⟨rfl, h0, _⟩ := h <;> obtain ⟨rfl, h0'⟩ | ⟨rfl, h0', _⟩ := h'
  · rfl
  · exact absurd h0 h0'
  · exact absurd h0' h0
  · rfl

theorem PopRaises.unique {s : State} {k k' : Fault} (h : PopRaises s k) (h' : PopRaises s k') : k = k' := by
  obtain ⟨rfl, h0⟩ | ⟨rfl, h0, _⟩ := h <;> obtain ⟨rfl, h0'⟩ | ⟨rfl, h0', _⟩ := h'
  · rfl
  · omega
  · omega
  · rfl

/-- What CALL of a register raises: its return address does not fit a byte, or it cannot push (R130). -/
def CallRaises (s : State) (k : Fault) : Prop :=
  (k = .outOfBoundsAccess ∧ 255 < s.pc + 2) ∨ (s.pc + 2 ≤ 255 ∧ PushRaises s k)

theorem CallRaises.unique {s : State} {k k' : Fault} (h : CallRaises s k) (h' : CallRaises s k') : k = k' := by
  obtain ⟨rfl, hbig⟩ | ⟨hfit, hpush⟩ := h <;> obtain ⟨rfl, hbig'⟩ | ⟨hfit', hpush'⟩ := h'
  · rfl
  · omega
  · omega
  · exact hpush.unique hpush'

/-- An operand byte is bad or names a register, so the fault is one if it is in the second case. -/
theorem badReg_or_unique {r : Byte} {P : Fault → Prop} (hP : ∀ k k', P k → P k' → k = k') {k k' : Fault}
    (h : BadReg r k ∨ (∃ p, r = regByte p) ∧ P k) (h' : BadReg r k' ∨ (∃ p, r = regByte p) ∧ P k') : k = k' := by
  obtain hbad | ⟨⟨p, rfl⟩, hk⟩ := h
  · obtain hbad' | ⟨⟨p, rfl⟩, _⟩ := h'
    · exact hbad.1.trans hbad'.1.symm
    · exact absurd hbad BadReg.not_regByte
  · obtain hbad' | ⟨_, hk'⟩ := h'
    · exact absurd hbad' BadReg.not_regByte
    · exact hP k k' hk hk'

theorem DivideRaises.unique {a b : Byte} {s : State} {k k' : Fault} (h : DivideRaises a b s k)
    (h' : DivideRaises a b s k') : k = k' := by
  obtain hbad | ⟨p, q, rfl, rfl, _, rfl⟩ := h
  · obtain hbad' | ⟨p, q, rfl, rfl, _⟩ := h'
    · exact hbad.1.trans hbad'.1.symm
    · exact absurd hbad BadPair.not_regByte
  · obtain hbad' | ⟨_, _, _, _, _, rfl⟩ := h'
    · exact absurd hbad' BadPair.not_regByte
    · rfl

theorem Raises.unique {i : Instr} {s : State} {k k' : Fault} (h : Raises i s k) (h' : Raises i s k') : k = k' := by
  cases i with
  | hlt => exact h.elim
  | ret => exact PopRaises.unique h h'
  | prn r | jmp r | jeq r | jne r | not r | ldi r _ => exact h.1.trans h'.1.symm
  | add a b | sub a b | mul a b | cmp a b | and a b | or a b | xor a b | shl a b | shr a b =>
    exact h.1.trans h'.1.symm
  | div a b | mod a b => exact DivideRaises.unique h h'
  | push r => exact badReg_or_unique (fun _ _ => PushRaises.unique) h h'
  | pop r => exact badReg_or_unique (fun _ _ => PopRaises.unique) h h'
  | call r => exact badReg_or_unique (fun _ _ => CallRaises.unique) h h'

theorem Effect.unique {i : Instr} {s t u : State} (ht : Effect i s t) (hu : Effect i s u) : t = u := by
  cases i with
  | hlt => exact ht.trans hu.symm
  | ret => exact ht.2.trans hu.2.symm
  | prn r | jmp r | jeq r | jne r | not r | ldi r _ =>
    obtain ⟨p, rfl, rfl⟩ := ht
    obtain ⟨p', hp, rfl⟩ := hu
    rw [regByte_injective hp]
  | push r | pop r =>
    obtain ⟨p, rfl, _, rfl⟩ := ht
    obtain ⟨p', hp, _, rfl⟩ := hu
    rw [regByte_injective hp]
  | call r =>
    obtain ⟨p, rfl, _, _, rfl⟩ := ht
    obtain ⟨p', hp, _, _, rfl⟩ := hu
    rw [regByte_injective hp]
  | add a b | sub a b | mul a b | cmp a b | and a b | or a b | xor a b | shl a b | shr a b =>
    obtain ⟨p, q, rfl, rfl, rfl⟩ := ht
    obtain ⟨p', q', hp, hq, rfl⟩ := hu
    rw [regByte_injective hp, regByte_injective hq]
  | div a b | mod a b =>
    obtain ⟨p, q, rfl, rfl, _, rfl⟩ := ht
    obtain ⟨p', q', hp, hq, _, rfl⟩ := hu
    rw [regByte_injective hp, regByte_injective hq]

/-! ### `exec` from each of the three ways -/

theorem exec_of_refuses {i : Instr} {s : State} (h : Refuses i s) : exec i s = .refused .spOperand := by
  obtain ⟨_, ho⟩ | ⟨hn, _⟩ | ⟨hn, _⟩ := exec_cases i s
  · exact ho
  · exact absurd h hn
  · exact absurd h hn

theorem exec_of_raises {i : Instr} {s : State} {k : Fault} (hn : ¬ Refuses i s) (h : Raises i s k) :
    exec i s = .next (takeFault k s) := by
  obtain ⟨hr, _⟩ | ⟨_, k', hk', ho⟩ | ⟨_, t, ht, _⟩ := exec_cases i s
  · exact absurd hr hn
  · rw [h.unique hk', ho]
  · exact absurd ht h.not_effect

theorem exec_of_effect {i : Instr} {s t : State} (hn : ¬ Refuses i s) (h : Effect i s t) : exec i s = .next t := by
  obtain ⟨hr, _⟩ | ⟨_, k, hk, _⟩ | ⟨_, u, hu, ho⟩ := exec_cases i s
  · exact absurd hr hn
  · exact absurd h hk.not_effect
  · rw [h.unique hu, ho]

end Sys2Proof.Machine
end

section
/-! PROOFS. 10_state.md: FL belongs to CMP, JEQ and JNE (R30); the output grows by PRN only (R37). -/

namespace Sys2Proof.Machine

open Sys2Proof.Claims

/-! ### Who writes FL and the output -/

/-- An instruction that completes keeps FL and the output, but CMP, which writes FL, and PRN, which appends x[r]. -/
theorem Effect.fl_out_cases {i : Instr} {s t : State} (h : Effect i s t) :
    (t.fl = s.fl ∧ t.out = s.out) ∨
    ((∃ a b, i = .cmp a b) ∧ t.out = s.out) ∨
    (∃ r, i = .prn (regByte r) ∧ t.fl = s.fl ∧ t.out = s.out ++ [s.reg r]) := by
  cases i with
  | hlt =>
    obtain rfl := h
    exact .inl ⟨rfl, rfl⟩
  | ret =>
    obtain ⟨_, rfl⟩ := h
    exact .inl ⟨rfl, rfl⟩
  | push r =>
    obtain ⟨p, _, _, rfl⟩ := h
    exact .inl ⟨rfl, rfl⟩
  | pop r =>
    obtain ⟨p, _, _, rfl⟩ := h
    left
    split <;> exact ⟨rfl, rfl⟩
  | call r =>
    obtain ⟨p, _, _, _, rfl⟩ := h
    exact .inl ⟨rfl, rfl⟩
  | prn r =>
    obtain ⟨p, rfl, rfl⟩ := h
    exact .inr (.inr ⟨p, rfl, rfl, rfl⟩)
  | jmp r | jeq r | jne r | not r | ldi r _ =>
    obtain ⟨p, _, rfl⟩ := h
    exact .inl ⟨rfl, rfl⟩
  | cmp a b =>
    obtain ⟨p, q, _, _, rfl⟩ := h
    exact .inr (.inl ⟨⟨a, b, rfl⟩, rfl⟩)
  | add a b | sub a b | mul a b | and a b | or a b | xor a b | shl a b | shr a b =>
    obtain ⟨p, q, _, _, rfl⟩ := h
    exact .inl ⟨rfl, rfl⟩
  | div a b | mod a b =>
    obtain ⟨p, q, _, _, _, rfl⟩ := h
    exact .inl ⟨rfl, rfl⟩

/-- `exec` keeps FL for every instruction but CMP, on every path (R30). -/
theorem exec_fl {i : Instr} {s t : State} (h : exec i s = .next t) (hi : ∀ a b, i ≠ .cmp a b) : t.fl = s.fl := by
  obtain ⟨k, _, rfl⟩ | he := exec_next_cases h
  · rfl
  · obtain ⟨hfl, _⟩ | ⟨⟨a, b, hcmp⟩, _⟩ | ⟨_, _, hfl, _⟩ := he.fl_out_cases
    · exact hfl
    · exact absurd hcmp (hi a b)
    · exact hfl

/-- `exec` keeps the output for every instruction but PRN, which appends one value (R37). -/
theorem exec_out {i : Instr} {s t : State} (h : exec i s = .next t) :
    t.out = s.out ∨ ∃ r : RegIndex, i = .prn (regByte r) ∧ t.out = s.out ++ [s.reg r] := by
  obtain ⟨k, _, rfl⟩ | he := exec_next_cases h
  · exact .inl rfl
  · obtain ⟨_, hout⟩ | ⟨_, hout⟩ | ⟨r, hi, _, hout⟩ := he.fl_out_cases
    · exact .inl hout
    · exact .inl hout
    · exact .inr ⟨r, hi, hout⟩

/-! ### Who reads FL -/

/-- No fault's cause reads FL. -/
theorem raises_setFl {i : Instr} {s : State} {k : Fault} (f : FlagBits) : Raises i (s.setFl f) k ↔ Raises i s k := by
  cases i <;> exact Iff.rfl

/-- An instruction whose effect carries FL through has the same outcome whatever FL is: neither the refusal nor a
fault looks at it. -/
theorem exec_setFl {i : Instr} {s : State} {f : FlagBits} (h : ∀ t, Effect i s t → Effect i (s.setFl f) (t.setFl f)) :
    exec i (s.setFl f) = withFl f (exec i s) := by
  obtain ⟨hr, ho⟩ | ⟨hn, k, hk, ho⟩ | ⟨hn, t, ht, ho⟩ := exec_cases i s
  · rw [ho]
    exact exec_of_refuses hr
  · rw [ho]
    exact exec_of_raises hn ((raises_setFl f).mpr hk)
  · rw [ho]
    exact exec_of_effect hn (h t ht)

/-- CMP, JEQ and JNE apart, FL is carried through. -/
theorem Effect.setFl {i : Instr} {s t : State} (f : FlagBits) (hcmp : ∀ a b, i ≠ .cmp a b) (hjeq : ∀ r, i ≠ .jeq r)
    (hjne : ∀ r, i ≠ .jne r) (h : Effect i s t) : Effect i (s.setFl f) (t.setFl f) := by
  cases i with
  | cmp a b => exact absurd rfl (hcmp a b)
  | jeq r => exact absurd rfl (hjeq r)
  | jne r => exact absurd rfl (hjne r)
  | hlt =>
    obtain rfl := h
    rfl
  | ret =>
    obtain ⟨hitem, rfl⟩ := h
    exact ⟨hitem, rfl⟩
  | push r =>
    obtain ⟨p, hp, hroom, rfl⟩ := h
    exact ⟨p, hp, hroom, rfl⟩
  | pop r =>
    obtain ⟨p, hp, hitem, rfl⟩ := h
    refine ⟨p, hp, hitem, ?_⟩
    split <;> rfl
  | call r =>
    obtain ⟨p, hp, hpc, hroom, rfl⟩ := h
    exact ⟨p, hp, hpc, hroom, rfl⟩
  | prn r | jmp r | not r | ldi r _ =>
    obtain ⟨p, hp, rfl⟩ := h
    exact ⟨p, hp, rfl⟩
  | add a b | sub a b | mul a b | and a b | or a b | xor a b | shl a b | shr a b =>
    obtain ⟨p, q, hp, hq, rfl⟩ := h
    exact ⟨p, q, hp, hq, rfl⟩
  | div a b | mod a b =>
    obtain ⟨p, q, hp, hq, h0, rfl⟩ := h
    exact ⟨p, q, hp, hq, h0, rfl⟩

/-- A branch whose condition FL's new value leaves alone carries FL through. -/
theorem BranchEffect.setFl {taken : Bool} {r : Byte} {s t : State} (f : FlagBits) (h : BranchEffect taken r s t) :
    BranchEffect taken r (s.setFl f) (t.setFl f) := by
  obtain ⟨p, hp, rfl⟩ := h
  exact ⟨p, hp, rfl⟩

theorem exec_jeq_setFl {s : State} {f : FlagBits} (r : Byte) (h : equalBit f = equalBit s.fl) :
    exec (.jeq r) (s.setFl f) = withFl f (exec (.jeq r) s) :=
  exec_setFl fun _ ht => by
    rw [Effect, State.setFl_fl, h]
    exact BranchEffect.setFl f ht

theorem exec_jne_setFl {s : State} {f : FlagBits} (r : Byte) (h : equalBit f = equalBit s.fl) :
    exec (.jne r) (s.setFl f) = withFl f (exec (.jne r) s) :=
  exec_setFl fun _ ht => by
    rw [Effect, State.setFl_fl, h]
    exact BranchEffect.setFl f ht

/-- CMP of two valid registers completes, and replaces FL by a value of the two registers alone (R113). -/
theorem exec_cmp_regByte (s : State) (a b : RegIndex) : exec (.cmp (regByte a) (regByte b)) s =
    .next ((s.setFl (compareFlags (s.reg a) (s.reg b))).setPc (s.pc + 3)) :=
  exec_of_effect (not_refuses_of_ne (by simp) (by simp) (by simp)) ⟨a, b, rfl, rfl, rfl⟩

/-- Settles O47: the frame of FL from `exec` and from what the host commands change; its readers from `exec_setFl`. -/
theorem flagsBelongToCmpJeqJne : Obligations.FlagsBelongToCmpJeqJne := by
  refine ⟨fun i s t => exec_fl, fun bytes s t h => ?_, fun a v s t h => ?_, fun idx v s t h => ?_,
    fun i s f hcmp hjeq hjne => exec_setFl fun t => Effect.setFl f hcmp hjeq hjne, fun s f a b => ?_,
    fun s f r hf => ⟨exec_jeq_setFl r hf, exec_jne_setFl r hf⟩⟩
  · rw [(load_ok h).2]
  · rw [(memoryWrite_ok h).2]
  · obtain ⟨_, rfl⟩ := registerWrite_ok h
    rfl
  · rw [exec_cmp_regByte, exec_cmp_regByte]
    rfl

/-! ### PRN, executed and stepped -/

/-- The statements' way to say that the bytes of an instruction lie at pc is the fetch laws' way. -/
theorem instrAtPc_iff_holdsAtPc {i : Instr} {s : State} : InstrAtPc i s ↔ HoldsAtPc i s := by
  constructor
  · exact fun h n hn => h n _ (List.getElem?_eq_getElem hn)
  · rintro h n b hb
    obtain ⟨hn, rfl⟩ := List.getElem?_eq_some_iff.mp hb
    exact h n hn

/-- A Running step executes the instruction at pc (R81). -/
theorem step_of_instrAtPc {i : Instr} {s : State} (hrun : s.loop = .running) (h : InstrAtPc i s) :
    step s = exec i s := by
  rw [step_of_running hrun, cycle, fetch_of_holds (instrAtPc_iff_holdsAtPc.mp h)]

/-- PRN of a valid register completes and appends its value (R141). -/
theorem exec_prn_regByte (s : State) (r : RegIndex) :
    exec (.prn (regByte r)) s = .next ((s.emit (s.reg r)).setPc (s.pc + 2)) :=
  exec_of_effect (not_refuses_of_ne (by simp) (by simp) (by simp)) ⟨r, rfl, rfl⟩

theorem exec_prn_out {r : RegIndex} {s t : State} (h : exec (.prn (regByte r)) s = .next t) :
    t.out = s.out ++ [s.reg r] := by
  rw [exec_prn_regByte] at h
  cases h
  rfl

theorem step_out {s t : State} (h : step s = .next t) :
    t.out = s.out ∨ ∃ r : RegIndex, InstrAtPc (.prn (regByte r)) s ∧ t.out = s.out ++ [s.reg r] := by
  obtain ⟨_, rfl⟩ | ⟨_, k, _, rfl⟩ | ⟨_, i, hi, he⟩ := step_next_cases h
  · exact .inl rfl
  · exact .inl rfl
  · obtain hout | ⟨r, rfl, hout⟩ := exec_out he
    · exact .inl hout
    · exact .inr ⟨r, instrAtPc_iff_holdsAtPc.mpr hi, hout⟩

/-- Settles O48: a next state of `exec` or `step` appends by PRN or not at all, and the host commands write no output. -/
theorem outputGrowsOnlyByPrn : Obligations.OutputGrowsOnlyByPrn := by
  refine ⟨fun c => rfl, fun i s t => exec_out, fun r s t => exec_prn_out, fun s t => step_out,
    fun r s t hrun hi h => ?_, fun bytes s t h => ?_, fun a v s t h => ?_, fun idx v s t h => ?_⟩
  · exact exec_prn_out (step_of_instrAtPc hrun hi ▸ h)
  · rw [(load_ok h).2]
  · rw [(memoryWrite_ok h).2]
  · obtain ⟨_, rfl⟩ := registerWrite_ok h
    rfl

end Sys2Proof.Machine
end

section
/-! PROOFS. 30_encoding.md: the opcode byte. It is a table both ways: a byte decodes to a mnemonic exactly when it is the
mnemonic's opcode (R66, R67); its bits 7-6 and bit 4 are the operand count and the class (R61, R64, R73); every other
byte is in R71's list. -/

namespace Sys2Proof

open Sys2Proof.Machine Sys2Proof.Claims

/-! ### The table's rows -/

theorem decodeOpcode_eq_some_iff {b : Byte} {m : Mnemonic} : decodeOpcode b = some m ↔ b = m.opcode := by
  constructor
  · exact eq_opcode_of_decodeOpcode
  · rintro rfl
    exact decodeOpcode_opcode m

/-- R66's row of a mnemonic, from the model's own columns. -/
def Mnemonic.row (m : Mnemonic) : Byte × Mnemonic × Nat × Bool := (m.opcode, m, m.operandCount, m.controlFlow)

theorem Mnemonic.row_mem_opcodeMap (m : Mnemonic) : m.row ∈ opcodeMap := by
  cases m <;> decide

/-- The written-out table and the model's columns have the same rows. -/
theorem mem_opcodeMap_iff {row : Byte × Mnemonic × Nat × Bool} : row ∈ opcodeMap ↔ row = row.2.1.row := by
  constructor
  · have hrows : ∀ row ∈ opcodeMap, row = row.2.1.row := by decide
    exact hrows row
  · intro h
    rw [h]
    exact row.2.1.row_mem_opcodeMap

/-- Bits 7-6 of an opcode are its operand count (R61). -/
theorem Mnemonic.opcode_toNat_div (m : Mnemonic) : m.opcode.toNat / 64 = m.operandCount := by
  cases m <;> rfl

/-- Bit 4 of an opcode is its control-flow class (R64). -/
theorem Mnemonic.opcode_getLsbD_four (m : Mnemonic) : m.opcode.getLsbD 4 = m.controlFlow := by
  cases m <;> rfl

/-- Settles O7: a byte decodes to `m` exactly when it is the opcode of `m`, and so the first column of the row of `m`. -/
theorem opcodeMapIsTheTable : Obligations.OpcodeMapIsTheTable := by
  refine ⟨fun b m => ?_, fun row hrow => ?_⟩
  · rw [decodeOpcode_eq_some_iff, mem_opcodeMap_iff]
    simp [Mnemonic.row]
  · rw [mem_opcodeMap_iff.mp hrow]
    exact ⟨row.2.1.opcode_toNat_div, row.2.1.opcode_getLsbD_four⟩

/-- Settles O10: an encoding is its opcode byte followed by the declared number of operand bytes. -/
theorem lengthIsInTheOpcodeByte : Obligations.LengthIsInTheOpcodeByte := by
  refine ⟨fun i b ops h => ?_, fun b rest => decode_cons_none⟩
  obtain ⟨ops', henc, hlen, _⟩ := encode_eq_cons i
  obtain ⟨rfl, rfl⟩ := List.cons.inj (h.symm.trans henc)
  exact ⟨hlen.trans i.mnemonic.opcode_toNat_div.symm, decodeOpcode_opcode i.mnemonic⟩

/-! ### The bytes without a row -/

theorem Mnemonic.not_illegalOpcode_opcode (m : Mnemonic) : ¬ IllegalOpcode m.opcode := by
  cases m <;> simp [IllegalOpcode, Mnemonic.opcode]

/-- The gaps between the decoder's 22 rows are R71's list. -/
theorem illegalOpcode_of_decodeOpcode_eq_none {b : Byte} (h : decodeOpcode b = none) : IllegalOpcode b := by
  rw [decodeOpcode] at h
  split at h
  iterate 22 · cases h
  · simp only [IllegalOpcode, imp_false] at *
    omega

theorem decodeOpcode_eq_none_iff {b : Byte} : decodeOpcode b = none ↔ IllegalOpcode b := by
  constructor
  · exact illegalOpcode_of_decodeOpcode_eq_none
  · intro hb
    rw [Option.eq_none_iff_forall_ne_some]
    intro m hm
    exact m.not_illegalOpcode_opcode (decodeOpcode_eq_some_iff.mp hm ▸ hb)

/-- Bits 7-6 = 11 put a byte past the last row, SHR's 0xAD (R62). -/
theorem illegalOpcode_of_top_bits {b : Byte} (h : b.toNat / 64 = 3) : IllegalOpcode b := by
  have hge : 0xAE ≤ b.toNat := by omega
  simp [IllegalOpcode, hge]

end Sys2Proof

namespace Sys2Proof.Machine

open Sys2Proof.Claims

/-! ### Fetching one of them -/

/-- The fetch ends at a byte without a row, before any operand byte is read (R83). -/
theorem fetch_of_illegalOpcode {s : State} (hpc : s.pc < s.cfg.memCapacity)
    (hb : IllegalOpcode (Memory.read s.mem s.pc)) : fetch s = .error .invalidOpcode := by
  simp only [fetch, memRead_of_lt hpc, decodeOpcode_eq_none_iff.mpr hb]

theorem step_of_fetch_error {s : State} {k : Fault} (hrun : s.loop = .running) (h : fetch s = .error k) :
    step s = .next (takeFault k s) := by
  rw [step_of_running hrun, cycle, h]

/-- A run of a machine from a state that its step keeps stays there. -/
theorem run_of_step_eq_self {M : Host.Core} {s : M.State} (h : M.step s = .next s) (n : Nat) : M.run n s = .next s := by
  induction n with
  | zero => rfl
  | succ n ih =>
    rw [Host.Core.run, h]
    exact ih

/-- Any number of steps from a terminal loop state leave the block as it is (R80, R154). -/
theorem run_of_terminal {s : State} (h : s.loop ≠ .running) (n : Nat) : Host.Core.run core n s = .next s :=
  run_of_step_eq_self (M := core) (step_of_terminal h) n

/-- Settles O9: R71's list is where the decoder has no row; such a byte ends the fetch, and a Faulted block stays. -/
theorem illegalOpcodesFault : Obligations.IllegalOpcodesFault := by
  have hloop (s : State) : (faultedIn s .invalidOpcode).loop ≠ .running := LoopState.noConfusion
  exact ⟨fun b => decodeOpcode_eq_none_iff, fun b h => decodeOpcode_eq_none_iff.mpr (illegalOpcode_of_top_bits h),
    fun s hrun hpc hb => ⟨step_of_fetch_error hrun (fetch_of_illegalOpcode hpc hb), run_of_terminal (hloop s)⟩⟩

end Sys2Proof.Machine
end

section
/-! PROOFS. 40_dispatch.md: the fetch phases (R82, R84), the gate on the loop state (R80), precise faults (R89) and the
advance of pc (R87). -/

namespace Sys2Proof.Machine

open Sys2Proof.Claims

/-! ### The fetch phases -/

/-- The fetch gives an instruction exactly when its bytes lie at pc, as raw bytes (R84). -/
theorem fetch_eq_ok_iff {s : State} {i : Instr} : fetch s = .ok i ↔ InstrAtPc i s := by
  rw [instrAtPc_iff_holdsAtPc]
  refine ⟨fun h => ?_, fetch_of_holds⟩
  obtain ⟨hf, _⟩ | ⟨hf, _⟩ | ⟨_, _, hf, _⟩ | ⟨j, hf, hj⟩ := fetch_cases s
  · cases h.symm.trans hf
  · cases h.symm.trans hf
  · cases h.symm.trans hf
  · cases h.symm.trans hf
    exact hj

/-- The first byte of an instruction at pc is its opcode. -/
theorem opcode_of_instrAtPc {s : State} {i : Instr} (h : InstrAtPc i s) :
    s.pc < s.cfg.memCapacity ∧ Memory.read s.mem s.pc = i.mnemonic.opcode := by
  obtain ⟨ops, henc, _⟩ := encode_eq_cons i
  exact h 0 i.mnemonic.opcode (by rw [henc]; rfl)

theorem fetch_of_pc_ge {s : State} (h : s.cfg.memCapacity ≤ s.pc) : fetch s = .error .outOfBoundsAccess := by
  simp only [fetch, memRead_of_ge h]

/-- The operand read of a legal opcode ends at the first operand byte past memory (R84). -/
theorem fetch_of_operand_ge {s : State} {m : Mnemonic} {n : Nat} (hpc : s.pc < s.cfg.memCapacity)
    (hm : decodeOpcode (Memory.read s.mem s.pc) = some m) (h1 : 1 ≤ n) (hn : n ≤ m.operandCount)
    (hge : s.cfg.memCapacity ≤ s.pc + n) : fetch s = .error .outOfBoundsAccess := by
  have hops : readOperands m.operandCount (s.pc + 1) s = .error .outOfBoundsAccess :=
    readOperands_of_past ⟨n - 1, by omega, by omega⟩
  simp only [fetch, memRead_of_lt hpc, hm, hops]

theorem step_of_pc_ge {s : State} (hrun : s.loop = .running) (h : s.cfg.memCapacity ≤ s.pc) :
    step s = .next (faultedIn s .outOfBoundsAccess) :=
  step_of_fetch_error hrun (fetch_of_pc_ge h)

/-- Settles O12: the fetch by the bytes at pc, and the fault of its operand read. -/
theorem operandReadPastMemoryFaults : Obligations.OperandReadPastMemoryFaults :=
  ⟨fun _ _ => fetch_eq_ok_iff,
    fun _ _ _ hrun hpc hm h1 hn hge => step_of_fetch_error hrun (fetch_of_operand_ge hpc hm h1 hn hge)⟩

/-- Settles O11: the first of the bytes at pc is the opcode, and a pc past memory ends the fetch. -/
theorem fetchPastMemoryFaults : Obligations.FetchPastMemoryFaults := by
  refine ⟨fun s i h => ?_, fun s => step_of_pc_ge⟩
  obtain ⟨hpc, hop⟩ := opcode_of_instrAtPc (fetch_eq_ok_iff.mp h)
  exact ⟨hpc, decodeOpcode_eq_some_iff.mpr hop⟩

/-! ### What step and run return -/

theorem stepCommand_of_next {s t : State} (h : step s = .next t) : stepCommand s = (t, .loop t.loop) := by
  rw [stepCommand, h]

/-- A run from a Running block is a step and the run of the rest of the budget (R92). -/
theorem runBudget_succ_of_next {s t : State} (hrun : s.loop = .running) (h : step s = .next t) (n : Nat) :
    runBudget (n + 1) s = runBudget n t := by
  simp only [runBudget, hrun, stepCommand_of_next h]

/-- A run from a Faulted block takes no step, whatever its budget (R80). -/
theorem runBudget_of_faulted {s : State} {k : Fault} (h : s.loop = .faulted k) (n : Nat) :
    runBudget n s = (.faulted k, s) := by
  cases n <;> simp only [runBudget, h]

/-- Settles O14: the gate of the step on the loop state, and the answer of the step command. -/
theorem stepsOnlyWhenRunning : Obligations.StepsOnlyWhenRunning :=
  ⟨fun _ => step_of_running, fun _ _ => stepCommand_of_next,
    fun _ h => ⟨step_of_terminal h, stepCommand_of_next (step_of_terminal h)⟩⟩

/-! ### Precise faults -/

/-- Of the instructions that complete only HLT writes the loop state (R88). -/
theorem Effect.loop_cases {i : Instr} {s t : State} (h : Effect i s t) :
    (i = .hlt ∧ t.loop = .halted) ∨ (i ≠ .hlt ∧ t.loop = s.loop) := by
  cases i with
  | hlt =>
    obtain rfl := h
    exact .inl ⟨rfl, rfl⟩
  | ret =>
    obtain ⟨_, rfl⟩ := h
    exact .inr ⟨Instr.noConfusion, rfl⟩
  | push r =>
    obtain ⟨p, _, _, rfl⟩ := h
    exact .inr ⟨Instr.noConfusion, rfl⟩
  | pop r =>
    obtain ⟨p, _, _, rfl⟩ := h
    refine .inr ⟨Instr.noConfusion, ?_⟩
    split <;> rfl
  | call r =>
    obtain ⟨p, _, _, _, rfl⟩ := h
    exact .inr ⟨Instr.noConfusion, rfl⟩
  | prn r | jmp r | jeq r | jne r | not r | ldi r _ =>
    obtain ⟨p, _, rfl⟩ := h
    exact .inr ⟨Instr.noConfusion, rfl⟩
  | add a b | sub a b | mul a b | cmp a b | and a b | or a b | xor a b | shl a b | shr a b =>
    obtain ⟨p, q, _, _, rfl⟩ := h
    exact .inr ⟨Instr.noConfusion, rfl⟩
  | div a b | mod a b =>
    obtain ⟨p, q, _, _, _, rfl⟩ := h
    exact .inr ⟨Instr.noConfusion, rfl⟩

/-- No effect is a fault, so the state in which a Running instruction is Faulted is the one before it (R89). -/
theorem eq_takeFault_of_exec {i : Instr} {s t : State} {k : Fault} (hrun : s.loop = .running)
    (h : exec i s = .next t) (ht : t.loop = .faulted k) : t = takeFault k s := by
  obtain ⟨k', _, rfl⟩ | he := exec_next_cases h
  · cases ht
    rfl
  · obtain ⟨_, hloop⟩ | ⟨_, hloop⟩ := he.loop_cases
    · cases hloop.symm.trans ht
    · cases hrun.symm.trans (hloop.symm.trans ht)

/-- The same of a whole step: its fetch phases write nothing. -/
theorem eq_takeFault_of_step {s t : State} {k : Fault} (hrun : s.loop = .running) (h : step s = .next t)
    (ht : t.loop = .faulted k) : t = takeFault k s := by
  obtain ⟨hl, _⟩ | ⟨_, k', _, rfl⟩ | ⟨_, i, _, he⟩ := step_next_cases h
  · exact absurd hrun hl
  · cases ht
    rfl
  · exact eq_takeFault_of_exec hrun he ht

/-- Settles O16: a fault is taken in the state before the step, and the block it leaves ends every run. -/
theorem faultsArePrecise : Obligations.FaultsArePrecise := by
  intro s t k hrun hstep ht
  refine ⟨eq_takeFault_of_step hrun hstep ht, ?_, fun n => ?_⟩
  · rw [stepCommand_of_next hstep, ht]
  · rw [runBudget_succ_of_next hrun hstep, runBudget_of_faulted ht]

/-! ### The advance of pc -/

/-- Phase 5 after an instruction that is not control-flow-class (R87). -/
theorem Effect.pc_of_not_controlFlow {i : Instr} {s t : State} (h : Effect i s t)
    (hi : i.mnemonic.controlFlow = false) : t.pc = s.pc + 1 + i.mnemonic.operandCount := by
  cases i with
  | ret | call r | jmp r | jeq r | jne r => cases hi
  | hlt =>
    obtain rfl := h
    rfl
  | push r | pop r =>
    obtain ⟨p, _, _, rfl⟩ := h
    rfl
  | prn r | not r | ldi r _ =>
    obtain ⟨p, _, rfl⟩ := h
    rfl
  | add a b | sub a b | mul a b | cmp a b | and a b | or a b | xor a b | shl a b | shr a b =>
    obtain ⟨p, q, _, _, rfl⟩ := h
    rfl
  | div a b | mod a b =>
    obtain ⟨p, q, _, _, _, rfl⟩ := h
    rfl

/-- A branch goes to a register's value, or past its two bytes (R132 to R134). -/
theorem BranchEffect.pc {taken : Bool} {r : Byte} {s t : State} (h : BranchEffect taken r s t) :
    (∃ v : Byte, taken = true ∧ t.pc = v.toNat) ∨ (taken = false ∧ t.pc = s.pc + 2) := by
  obtain ⟨p, _, rfl⟩ := h
  cases taken with
  | true => exact .inl ⟨s.reg p, rfl, rfl⟩
  | false => exact .inr ⟨rfl, rfl⟩

/-- A control-flow-class instruction sets pc to a byte value, or is JEQ or JNE and not taken (R87). -/
theorem Effect.pc_of_controlFlow {i : Instr} {s t : State} (h : Effect i s t) (hi : i.mnemonic.controlFlow = true) :
    (∃ v : Byte, t.pc = v.toNat) ∨
    (((∃ r, i = .jeq r) ∨ (∃ r, i = .jne r)) ∧ t.pc = s.pc + 1 + i.mnemonic.operandCount) := by
  cases i with
  | hlt | push _ | pop _ | prn _ | not _ | ldi _ _ => cases hi
  | add _ _ | sub _ _ | mul _ _ | div _ _ | mod _ _ | cmp _ _ | and _ _ | or _ _ | xor _ _ | shl _ _ | shr _ _ =>
    cases hi
  | ret =>
    obtain ⟨_, rfl⟩ := h
    exact .inl ⟨_, rfl⟩
  | call r =>
    obtain ⟨p, _, _, _, rfl⟩ := h
    exact .inl ⟨_, rfl⟩
  | jmp r =>
    obtain ⟨v, _, hpc⟩ | ⟨htaken, _⟩ := BranchEffect.pc h
    · exact .inl ⟨v, hpc⟩
    · cases htaken
  | jeq r => exact (BranchEffect.pc h).imp (fun ⟨v, _, hpc⟩ => ⟨v, hpc⟩) fun ⟨_, hpc⟩ => ⟨.inl ⟨r, rfl⟩, hpc⟩
  | jne r => exact (BranchEffect.pc h).imp (fun ⟨v, _, hpc⟩ => ⟨v, hpc⟩) fun ⟨_, hpc⟩ => ⟨.inr ⟨r, rfl⟩, hpc⟩

/-- An instruction that leaves the block Running has completed. -/
theorem effect_of_exec_running {i : Instr} {s t : State} (h : exec i s = .next t) (ht : t.loop = .running) :
    Effect i s t := by
  obtain ⟨k, _, rfl⟩ | he := exec_next_cases h
  · cases ht
  · exact he

/-- Settles O52: pc by the effect of the instruction, and a pc past memory by the next step's fetch. -/
theorem pcAdvanceRule : Obligations.PcAdvanceRule := by
  intro s t i hrun hi hstep ht
  have he : Effect i s t := effect_of_exec_running (step_of_instrAtPc hrun hi ▸ hstep) ht
  exact ⟨he.pc_of_not_controlFlow, he.pc_of_controlFlow, step_of_pc_ge ht⟩

end Sys2Proof.Machine
end

section
/-! PROOFS. 41_alu.md: the ALU instructions. The value each of its functions gives, read as a natural number (R101 to
R113), and once for every instruction with two register operands: its encoding, its index fault and its effect. -/

namespace Sys2Proof.Machine

open Sys2Proof.Claims

/-! ### The values -/

section Values

variable (x y : Byte)

@[simp] theorem aluAdd_toNat : (aluAdd x y).toNat = (x.toNat + y.toNat) % 256 := BitVec.toNat_add x y

@[simp] theorem aluSub_toNat : (aluSub x y).toNat = (((x.toNat : Int) - (y.toNat : Int)) % 256).toNat := by
  rw [aluSub, BitVec.toNat_sub]
  omega

@[simp] theorem aluMul_toNat : (aluMul x y).toNat = (x.toNat * y.toNat) % 256 := BitVec.toNat_mul x y

@[simp] theorem aluDiv_toNat : (aluDiv x y).toNat = x.toNat / y.toNat := BitVec.toNat_udiv

@[simp] theorem aluMod_toNat : (aluMod x y).toNat = x.toNat % y.toNat := BitVec.toNat_umod

@[simp] theorem aluAnd_toNat : (aluAnd x y).toNat = x.toNat &&& y.toNat := BitVec.toNat_and x y

@[simp] theorem aluOr_toNat : (aluOr x y).toNat = x.toNat ||| y.toNat := BitVec.toNat_or x y

@[simp] theorem aluXor_toNat : (aluXor x y).toNat = x.toNat ^^^ y.toNat := BitVec.toNat_xor x y

@[simp] theorem aluNot_toNat : (aluNot x).toNat = 255 - x.toNat := BitVec.toNat_not

@[simp] theorem aluShl_toNat : (aluShl x y).toNat = (x.toNat * 2 ^ y.toNat) % 256 := by
  rw [aluShl, BitVec.toNat_shiftLeft, Nat.shiftLeft_eq]

@[simp] theorem aluShr_toNat : (aluShr x y).toNat = x.toNat / 2 ^ y.toNat := by
  rw [aluShr, BitVec.toNat_ushiftRight, Nat.shiftRight_eq_div_pow]

/-- R113 compares the registers as unsigned numbers. -/
theorem compareFlags_eq_toNat : compareFlags x y =
    if x.toNat = y.toNat then 0b001 else if y.toNat < x.toNat then 0b010 else 0b100 := by
  simp only [compareFlags, BitVec.toNat_inj, BitVec.lt_def]
  rfl

end Values

/-! ### Writing a register, and the bytes that name none -/

@[simp] theorem wrote_reg_same (s : State) (p : RegIndex) (v : Byte) (n : Nat) : (wrote s p v n).reg p = v :=
  State.setReg_reg_same s p v

/-- The value of a byte, written to a register as the statements write it. -/
theorem wrote_of_toNat {s : State} {p : RegIndex} {v : Byte} {k n : Nat} (hv : v.toNat = k) :
    wrote s p v n = { s with regs := s.regs.set p (BitVec.ofNat 8 k), pc := s.pc + n } := by
  rw [← hv, BitVec.ofNat_toNat, BitVec.setWidth_eq, wrote]

theorem validReg_eq_false {b : Byte} (h : 8 ≤ b.toNat) : validReg b = false :=
  decide_eq_false h.not_gt

/-! ### One register operand -/

theorem decode_one_operand {m : Mnemonic} (hn : m.operandCount = 1) (r : Byte) (rest : List Byte) :
    decode (m.opcode :: r :: rest) = .ok (m.build [r], rest) := by
  rw [decode_cons_some (decodeOpcode_opcode m) (by simp [hn]), hn]
  rfl

/-- NOT of a valid register completes (R110). -/
theorem exec_not_regByte (s : State) (r : RegIndex) :
    exec (.not (regByte r)) s = .next (wrote s r (aluNot (s.reg r)) 2) :=
  exec_of_effect (not_refuses_of_ne (by simp) (by simp) (by simp)) ⟨r, rfl, rfl⟩

/-- Settles O29: one operand byte, the complement of the register, and the index fault. -/
theorem notIsTheComplement : Obligations.NotIsTheComplement := by
  refine ⟨decode_one_operand (m := .not) rfl, fun s r => ?_, fun s r hr => ?_⟩
  · rw [exec_not_regByte, wrote_of_toNat (aluNot_toNat _)]
  · exact faults_outOfBounds_of_not_wellFormed s (Bool.eq_false_iff.mp (validReg_eq_false hr))

/-! ### Two register operands

The instructions with two operand bytes other than LDI, whose second one is an immediate. -/

section RegisterPair

variable {m : Mnemonic} (hn : m.operandCount = 2) (hldi : m ≠ .ldi)

include hn

theorem decode_two_operands (a b : Byte) (rest : List Byte) :
    decode (m.opcode :: a :: b :: rest) = .ok (m.build [a, b], rest) := by
  rw [decode_cons_some (decodeOpcode_opcode m) (by simp [hn]), hn]
  rfl

/-- The forms that R122 refuses have one operand byte. -/
theorem not_refuses_of_two_operands (ops : List Byte) (s : State) : ¬ Refuses (m.build ops) s := by
  have hne {i : Instr} (hi : i.mnemonic.operandCount = 1) : m.build ops ≠ i := by
    rintro rfl
    rw [build_mnemonic, hn] at hi
    cases hi
  exact not_refuses_of_ne (fun _ => hne rfl) (fun _ => hne rfl) fun _ => hne rfl

/-- An instruction that only writes a function of both registers completes for all of them. -/
theorem exec_binary_regByte {g : Byte → Byte → Byte} (heff : ∀ a b, Effect (m.build [a, b]) = BinaryEffect g a b)
    (s : State) (a b : RegIndex) :
    exec (m.build [regByte a, regByte b]) s = .next (wrote s a (g (s.reg a) (s.reg b)) 3) :=
  exec_of_effect (not_refuses_of_two_operands hn _ s) (heff _ _ ▸ ⟨a, b, rfl, rfl, rfl⟩)

/-- DIV and MOD complete for a divisor other than 0. -/
theorem exec_divide_regByte {g : Byte → Byte → Byte} (heff : ∀ a b, Effect (m.build [a, b]) = DivideEffect g a b)
    (s : State) (a b : RegIndex) (hb : s.reg b ≠ 0) :
    exec (m.build [regByte a, regByte b]) s = .next (wrote s a (g (s.reg a) (s.reg b)) 3) :=
  exec_of_effect (not_refuses_of_two_operands hn _ s) (heff _ _ ▸ ⟨a, b, rfl, rfl, hb, rfl⟩)

/-- A zero divisor is the other fault of DIV and MOD. -/
theorem faults_of_divisor_zero (hraise : ∀ a b, Raises (m.build [a, b]) = DivideRaises a b) (s : State)
    (a b : RegIndex) (hb : s.reg b = 0) : Faults (m.build [regByte a, regByte b]) s .divisionByZero :=
  exec_of_raises (not_refuses_of_two_operands hn _ s) (hraise _ _ ▸ .inr ⟨a, b, rfl, rfl, hb, rfl⟩)

include hldi

theorem build_pair_wellFormed (a b : Byte) : (m.build [a, b]).wellFormed = (validReg a && validReg b) := by
  cases m with
  | ldi => exact absurd rfl hldi
  | hlt | ret | push | pop | prn | call | jmp | jeq | jne | not => cases hn
  | add | sub | mul | div | mod | cmp | and | or | xor | shl | shr => rfl

/-- An index of 8 or more in either place (R100). -/
theorem faults_of_pair_ge (s : State) (a b : Byte) (h : 8 ≤ a.toNat ∨ 8 ≤ b.toNat) :
    Faults (m.build [a, b]) s .outOfBoundsAccess := by
  refine faults_outOfBounds_of_not_wellFormed s ?_
  rw [Instr.WellFormed, build_pair_wellFormed hn hldi]
  obtain ha | hb := h
  · simp [validReg_eq_false ha]
  · simp [validReg_eq_false hb]

/-- An instruction that writes a function `g` of both registers follows the rule `TwoRegister` of `g` on naturals. -/
theorem twoRegister_of_effect {g : Byte → Byte → Byte} {f : Nat → Nat → Nat}
    (heff : ∀ a b, Effect (m.build [a, b]) = BinaryEffect g a b)
    (hval : ∀ x y, (g x y).toNat = f x.toNat y.toNat) :
    TwoRegister m.opcode (fun a b => m.build [a, b]) f := by
  refine ⟨decode_two_operands hn, fun s a b => ?_, faults_of_pair_ge hn hldi⟩
  rw [exec_binary_regByte hn heff, wrote_of_toNat (hval _ _)]

/-- The same of DIV and MOD, whose zero divisor is the other fault (R105, R106). -/
theorem twoRegisterDivide_of_effect {g : Byte → Byte → Byte} {f : Nat → Nat → Nat}
    (heff : ∀ a b, Effect (m.build [a, b]) = DivideEffect g a b)
    (hraise : ∀ a b, Raises (m.build [a, b]) = DivideRaises a b)
    (hval : ∀ x y, (g x y).toNat = f x.toNat y.toNat) :
    TwoRegisterDivide m.opcode (fun a b => m.build [a, b]) f := by
  refine ⟨decode_two_operands hn, fun s a b hb => ?_, faults_of_divisor_zero hn hraise, faults_of_pair_ge hn hldi⟩
  rw [exec_divide_regByte hn heff s a b hb, wrote_of_toNat (hval _ _)]

end RegisterPair

/-- Settles O21: addition of words is addition modulo 256. -/
theorem addWrapsModulo256 : Obligations.AddWrapsModulo256 :=
  twoRegister_of_effect (m := .add) rfl nofun (fun _ _ => rfl) aluAdd_toNat

/-- Settles O22: subtraction of words is that of integers modulo 256. -/
theorem subWrapsModulo256 : Obligations.SubWrapsModulo256 :=
  twoRegister_of_effect (m := .sub) rfl nofun (fun _ _ => rfl) aluSub_toNat

/-- Settles O23: multiplication of words is multiplication modulo 256. -/
theorem mulKeepsTheLowByte : Obligations.MulKeepsTheLowByte :=
  twoRegister_of_effect (m := .mul) rfl nofun (fun _ _ => rfl) aluMul_toNat

/-- Settles O26: the bits of the two words are the bits of the two numbers. -/
theorem andIsBitwise : Obligations.AndIsBitwise :=
  twoRegister_of_effect (m := .and) rfl nofun (fun _ _ => rfl) aluAnd_toNat

/-- Settles O27, as for AND. -/
theorem orIsBitwise : Obligations.OrIsBitwise :=
  twoRegister_of_effect (m := .or) rfl nofun (fun _ _ => rfl) aluOr_toNat

/-- Settles O28, as for AND. -/
theorem xorIsBitwise : Obligations.XorIsBitwise :=
  twoRegister_of_effect (m := .xor) rfl nofun (fun _ _ => rfl) aluXor_toNat

/-- Settles O30: a shift left by the whole byte is a multiplication, of which the low byte is kept. -/
theorem shlMultipliesByAPowerOfTwo : Obligations.ShlMultipliesByAPowerOfTwo :=
  twoRegister_of_effect (m := .shl) rfl nofun (fun _ _ => rfl) aluShl_toNat

/-- Settles O31: a logical shift right by the whole byte is a division. -/
theorem shrDividesByAPowerOfTwo : Obligations.ShrDividesByAPowerOfTwo :=
  twoRegister_of_effect (m := .shr) rfl nofun (fun _ _ => rfl) aluShr_toNat

/-- Settles O32: CMP replaces FL by the comparison of the two numbers, whatever it was. -/
theorem cmpSetsExactlyOneFlag : Obligations.CmpSetsExactlyOneFlag := by
  refine ⟨decode_two_operands (m := .cmp) rfl, fun s a b => ?_, faults_of_pair_ge (m := .cmp) rfl nofun⟩
  rw [exec_cmp_regByte, compareFlags_eq_toNat]
  rfl

/-! ### Quotient and remainder -/

/-- Settles O24: division of words is that of the numbers; the zero divisor is a fault of its own. -/
theorem divIsTheUnsignedQuotient : Obligations.DivIsTheUnsignedQuotient :=
  twoRegisterDivide_of_effect (m := .div) rfl nofun (fun _ _ => rfl) (fun _ _ => rfl) aluDiv_toNat

/-- R106's law between the quotient and the remainder. -/
theorem mul_aluDiv_add_aluMod (x y : Byte) : y.toNat * (aluDiv x y).toNat + (aluMod x y).toNat = x.toNat := by
  rw [aluDiv_toNat, aluMod_toNat, Nat.div_add_mod]

/-- Settles O25: the rule of MOD, and its law between the values that DIV and MOD write. -/
theorem modIsTheUnsignedRemainder : Obligations.ModIsTheUnsignedRemainder := by
  refine ⟨twoRegisterDivide_of_effect (m := .mod) rfl nofun (fun _ _ => rfl) (fun _ _ => rfl) aluMod_toNat,
    fun s a b hb => ⟨_, _, exec_divide_regByte (m := .div) rfl (fun _ _ => rfl) s a b hb,
      exec_divide_regByte (m := .mod) rfl (fun _ _ => rfl) s a b hb, ?_⟩⟩
  rw [wrote_reg_same, wrote_reg_same, mul_aluDiv_add_aluMod]

end Sys2Proof.Machine
end

section
/-! PROOFS. 42_stack.md: PUSH and POP, and R7 as the operand of PUSH, POP and CALL. Each form's effect and faults are
shown once for every register whose use as an operand the policy allows (R122); R7 under `Sequential` and the registers
other than R7 are its two cases. -/

namespace Sys2Proof.Machine

open Sys2Proof.Claims

/-! ### SP one lower and one higher -/

theorem pred_eq_ofNat {b : Byte} (h : b ≠ 0) : b - 1 = BitVec.ofNat 8 (b.toNat - 1) := by
  rw [← toNat_pred h, BitVec.ofNat_toNat, BitVec.setWidth_eq]

theorem succ_eq_ofNat (b : Byte) : b + 1 = BitVec.ofNat 8 (b.toNat + 1) := by
  rw [BitVec.ofNat_add, BitVec.ofNat_toNat, BitVec.setWidth_eq]
  rfl

theorem succ_eq_ofNat_mod (b : Byte) : b + 1 = BitVec.ofNat 8 ((b.toNat + 1) % 256) :=
  BitVec.eq_of_toNat_eq (by simp)

/-! ### A push, as the statements write it -/

section Push

variable {s : State}

theorem room_of_lt (hsp : s.sp ≠ 0) (hlt : s.sp.toNat - 1 < s.cfg.memCapacity) : Room s :=
  ⟨hsp, toNat_pred hsp ▸ hlt⟩

theorem pushRaises_of_ge (hsp : s.sp ≠ 0) (hge : s.cfg.memCapacity ≤ s.sp.toNat - 1) :
    PushRaises s .outOfBoundsAccess :=
  .inr ⟨rfl, hsp, toNat_pred hsp ▸ hge⟩

/-- An instruction that pushes stores its byte at SP - 1 and lowers SP (R120). -/
theorem exec_storedAt_of_pushed {i : Instr} {v : Byte} {pc : Nat} (hsp : s.sp ≠ 0)
    (h : exec i s = .next (pushed s v pc)) :
    ∃ m, StoredAt s.mem m (s.sp.toNat - 1) v ∧
      exec i s = .next { s with regs := s.regs.set 7 (BitVec.ofNat 8 (s.sp.toNat - 1)), mem := m, pc := pc } := by
  refine ⟨_, storedAt_write s.mem _ v, ?_⟩
  rw [h, pushed, toNat_pred hsp, pred_eq_ofNat hsp]
  rfl

end Push

/-! ### Who is refused -/

theorem regByte_spIndex : regByte spIndex = 7 := rfl

theorem not_refuses_of_sequential {i : Instr} {s : State} (h : s.cfg.spPolicy = .sequential) : ¬ Refuses i s := by
  rintro ⟨hpol, _⟩
  cases h.symm.trans hpol

theorem not_refuses_of_not_spForm {i : Instr} (s : State) (hpush : i ≠ .push 7) (hpop : i ≠ .pop 7)
    (hcall : i ≠ .call 7) : ¬ Refuses i s := by
  rintro ⟨_, hi | hi | hi⟩
  · exact hpush hi
  · exact hpop hi
  · exact hcall hi

/-- An instruction that is not refused answers a next state: a fault is one too (R13). -/
theorem exec_answers_next {i : Instr} {s : State} (hn : ¬ Refuses i s) : ∃ t, exec i s = .next t := by
  obtain ⟨hr, _⟩ | ⟨_, k, _, ho⟩ | ⟨_, t, _, ho⟩ := exec_cases i s
  · exact absurd hr hn
  · exact ⟨_, ho⟩
  · exact ⟨_, ho⟩

/-! ### PUSH, POP and CALL of a register that the policy allows as an operand -/

section Allowed

variable {s : State} {r : RegIndex} (hr : r = spIndex → s.cfg.spPolicy = .sequential)

include hr

/-- The three forms are refused for R7 under `Refuse` only (R122). -/
theorem not_refuses_of_allowed {i : Instr}
    (hi : i = .push (regByte r) ∨ i = .pop (regByte r) ∨ i = .call (regByte r)) : ¬ Refuses i s := by
  intro h
  have hbyte : regByte r = regByte spIndex := by
    obtain ⟨_, hform⟩ := h
    obtain rfl | rfl | rfl := hi <;> simpa using hform
  exact not_refuses_of_sequential (hr (regByte_injective hbyte)) h

theorem exec_push_of_room (hroom : Room s) :
    exec (.push (regByte r)) s = .next (pushed s (pushedValue r s) (s.pc + 2)) :=
  exec_of_effect (not_refuses_of_allowed hr (.inl rfl)) ⟨r, rfl, hroom, rfl⟩

theorem push_faults {k : Fault} (hk : PushRaises s k) : Faults (.push (regByte r)) s k :=
  exec_of_raises (not_refuses_of_allowed hr (.inl rfl)) (.inr ⟨⟨r, rfl⟩, hk⟩)

theorem exec_pop_of_item (hitem : Item s) : exec (.pop (regByte r)) s =
    .next ((if r = spIndex then s.setSp (Memory.read s.mem s.sp.toNat + 1)
      else (s.setSp (s.sp + 1)).setReg r (Memory.read s.mem s.sp.toNat)).setPc (s.pc + 2)) :=
  exec_of_effect (not_refuses_of_allowed hr (.inr (.inl rfl))) ⟨r, rfl, hitem, rfl⟩

theorem pop_faults {k : Fault} (hk : PopRaises s k) : Faults (.pop (regByte r)) s k :=
  exec_of_raises (not_refuses_of_allowed hr (.inr (.inl rfl))) (.inr ⟨⟨r, rfl⟩, hk⟩)

theorem exec_call_of_room (hpc : s.pc + 2 ≤ 255) (hroom : Room s) : exec (.call (regByte r)) s =
    .next (pushed s (BitVec.ofNat 8 (s.pc + 2)) (if r = spIndex then s.sp - 1 else s.reg r).toNat) :=
  exec_of_effect (not_refuses_of_allowed hr (.inr (.inr rfl))) ⟨r, rfl, hpc, hroom, rfl⟩

theorem call_faults {k : Fault} (hk : CallRaises s k) : Faults (.call (regByte r)) s k :=
  exec_of_raises (not_refuses_of_allowed hr (.inr (.inr rfl))) (.inr ⟨⟨r, rfl⟩, hk⟩)

end Allowed

/-! ### A register other than R7, and the bytes that name none -/

theorem exec_push_of_ne {s : State} {r : RegIndex} (hr : r ≠ 7) (hroom : Room s) :
    exec (.push (regByte r)) s = .next (pushed s (s.reg r) (s.pc + 2)) := by
  rw [exec_push_of_room (absurd · hr) hroom, pushedValue, if_neg hr]

theorem exec_pop_of_ne {s : State} {r : RegIndex} (hr : r ≠ 7) (hitem : Item s) : exec (.pop (regByte r)) s =
    .next (((s.setSp (s.sp + 1)).setReg r (Memory.read s.mem s.sp.toNat)).setPc (s.pc + 2)) := by
  rw [exec_pop_of_item (absurd · hr) hitem, if_neg hr]

theorem not_validReg_of_ge {b : Byte} (h : 8 ≤ b.toNat) : ¬ validReg b = true :=
  Bool.eq_false_iff.mp (validReg_eq_false h)

/-- Settles O33: the effect of PUSH where there is room, and the causes of its faults where there is none. -/
theorem pushStoresBelowTheStackPointer : Obligations.PushStoresBelowTheStackPointer := by
  refine ⟨decode_one_operand (m := .push) rfl, fun s r hr hsp hlt => ?_, fun s r hge => ?_,
    fun s r hr hsp => ?_, fun s r hr hsp hge => ?_⟩
  · exact exec_storedAt_of_pushed hsp (exec_push_of_ne hr (room_of_lt hsp hlt))
  · exact faults_outOfBounds_of_not_wellFormed s (not_validReg_of_ge hge)
  · exact push_faults (absurd · hr) (.inl ⟨rfl, hsp⟩)
  · exact push_faults (absurd · hr) (pushRaises_of_ge hsp hge)

/-- Settles O34: the effect of POP where there is an item, and the causes of its faults where there is none. -/
theorem popLoadsFromTheStackPointer : Obligations.PopLoadsFromTheStackPointer := by
  refine ⟨decode_one_operand (m := .pop) rfl, fun s r hr htop hlt => ?_, fun s r hge => ?_,
    fun s r hr htop => ?_, fun s r hr htop hge => ?_⟩
  · rw [exec_pop_of_ne hr ⟨htop, hlt⟩, succ_eq_ofNat]
    rfl
  · exact faults_outOfBounds_of_not_wellFormed s (not_validReg_of_ge hge)
  · exact pop_faults (absurd · hr) (.inl ⟨rfl, htop⟩)
  · exact pop_faults (absurd · hr) (.inr ⟨rfl, htop, hge⟩)

/-! ### R7 under `Sequential` -/

section Sequential

variable {s : State} (hpol : s.cfg.spPolicy = .sequential)

include hpol

/-- PUSH R7 stores the decremented SP (R122). -/
theorem exec_push_sp (hroom : Room s) : exec (.push 7) s = .next (pushed s (s.sp - 1) (s.pc + 2)) := by
  rw [← regByte_spIndex, exec_push_of_room (fun _ => hpol) hroom, pushedValue, if_pos rfl]

/-- POP R7 increments the byte it reads (R122). -/
theorem exec_pop_sp (hitem : Item s) :
    exec (.pop 7) s = .next ((s.setSp (Memory.read s.mem s.sp.toNat + 1)).setPc (s.pc + 2)) := by
  rw [← regByte_spIndex, exec_pop_of_item (fun _ => hpol) hitem, if_pos rfl]

/-- CALL R7 jumps to the decremented SP (R122). -/
theorem exec_call_sp (hpc : s.pc + 2 ≤ 255) (hroom : Room s) :
    exec (.call 7) s = .next (pushed s (BitVec.ofNat 8 (s.pc + 2)) (s.sp.toNat - 1)) := by
  rw [← regByte_spIndex, exec_call_of_room (fun _ => hpol) hpc hroom, if_pos rfl, toNat_pred hroom.1]

end Sequential

/-- Settles O35: the refusals are what `Refuses` names; under `Sequential` each form has R7's effect or the cause of its
fault; and whatever is not refused answers a next state. -/
theorem spOperandFormsFollowThePolicy : Obligations.SpOperandFormsFollowThePolicy := by
  refine ⟨fun s hpol => ?refuse, fun s hpol => ?push, fun s hpol => ?pop, fun s hpol => ?call,
    fun i s hpush hpop hcall => ?others⟩
  case refuse =>
    exact ⟨exec_of_refuses ⟨hpol, .inl rfl⟩, exec_of_refuses ⟨hpol, .inr (.inl rfl)⟩,
      exec_of_refuses ⟨hpol, .inr (.inr rfl)⟩⟩
  case push =>
    refine ⟨fun hsp hlt => ?_, fun hsp => ?_, fun hsp hge => ?_⟩
    · exact exec_storedAt_of_pushed hsp (pred_eq_ofNat hsp ▸ exec_push_sp hpol (room_of_lt hsp hlt))
    · exact push_faults (r := spIndex) (fun _ => hpol) (.inl ⟨rfl, hsp⟩)
    · exact push_faults (r := spIndex) (fun _ => hpol) (pushRaises_of_ge hsp hge)
  case pop =>
    refine ⟨fun htop hlt => ?_, fun htop => ?_, fun htop hge => ?_⟩
    · rw [exec_pop_sp hpol ⟨htop, hlt⟩, succ_eq_ofNat_mod]
      rfl
    · exact pop_faults (r := spIndex) (fun _ => hpol) (.inl ⟨rfl, htop⟩)
    · exact pop_faults (r := spIndex) (fun _ => hpol) (.inr ⟨rfl, htop, hge⟩)
  case call =>
    refine ⟨fun hpc hsp hlt => ?_, fun hpc => ?_, fun hpc hsp => ?_, fun hpc hsp hge => ?_⟩
    · exact exec_storedAt_of_pushed hsp (exec_call_sp hpol hpc (room_of_lt hsp hlt))
    · exact call_faults (r := spIndex) (fun _ => hpol) (.inl ⟨rfl, hpc⟩)
    · exact call_faults (r := spIndex) (fun _ => hpol) (.inr ⟨hpc, .inl ⟨rfl, hsp⟩⟩)
    · exact call_faults (r := spIndex) (fun _ => hpol) (.inr ⟨hpc, pushRaises_of_ge hsp hge⟩)
  case others => exact exec_answers_next (not_refuses_of_not_spForm s hpush hpop hcall)

end Sys2Proof.Machine
end

section
/-! PROOFS. 43_control_flow.md: CALL, RET and the three jumps. CALL and RET are a push and a pop that set pc; JMP, JEQ
and JNE share one effect, whose condition is all that differs. -/

namespace Sys2Proof.Machine

open Sys2Proof.Claims

/-! ### CALL and RET -/

/-- A register other than R7 gives the target it had before the push (R130). -/
theorem exec_call_of_ne {s : State} {r : RegIndex} (hr : r ≠ 7) (hpc : s.pc + 2 ≤ 255) (hroom : Room s) :
    exec (.call (regByte r)) s = .next (pushed s (BitVec.ofNat 8 (s.pc + 2)) (s.reg r).toNat) := by
  rw [exec_call_of_room (absurd · hr) hpc hroom, if_neg hr]

/-- Settles O38: the effect of CALL where the return address fits and there is room, and the causes of its faults in
the order of its checks. -/
theorem callPushesTheReturnAddress : Obligations.CallPushesTheReturnAddress := by
  refine ⟨decode_one_operand (m := .call) rfl, fun s r hr hpc hsp hlt => ?_, fun s r hge => ?_,
    fun s r hr hpc => ?_, fun s r hr hpc hsp => ?_, fun s r hr hpc hsp hge => ?_⟩
  · exact exec_storedAt_of_pushed hsp (exec_call_of_ne hr hpc (room_of_lt hsp hlt))
  · exact faults_outOfBounds_of_not_wellFormed s (not_validReg_of_ge hge)
  · exact call_faults (absurd · hr) (.inl ⟨rfl, hpc⟩)
  · exact call_faults (absurd · hr) (.inr ⟨hpc, .inl ⟨rfl, hsp⟩⟩)
  · exact call_faults (absurd · hr) (.inr ⟨hpc, pushRaises_of_ge hsp hge⟩)

/-- RET has no operand, so it is none of the forms that R122 refuses. -/
theorem not_refuses_ret (s : State) : ¬ Refuses .ret s :=
  not_refuses_of_not_spForm s nofun nofun nofun

theorem exec_ret_of_item {s : State} (hitem : Item s) :
    exec .ret s = .next ((s.setSp (s.sp + 1)).setPc (Memory.read s.mem s.sp.toNat).toNat) :=
  exec_of_effect (not_refuses_ret s) ⟨hitem, rfl⟩

theorem ret_faults {s : State} {k : Fault} (hk : PopRaises s k) : Faults .ret s k :=
  exec_of_raises (not_refuses_ret s) hk

/-- Settles O39: the effect of RET where there is an item, and the causes of its faults where there is none. -/
theorem retPopsThePc : Obligations.RetPopsThePc := by
  refine ⟨fun rest => ?_, fun s htop hlt => ?_, fun s htop => ?_, fun s htop hge => ?_⟩
  · exact decode_cons_some (decodeOpcode_opcode .ret) rest.length.zero_le
  · rw [exec_ret_of_item ⟨htop, hlt⟩, succ_eq_ofNat]
    rfl
  · exact ret_faults (.inl ⟨rfl, htop⟩)
  · exact ret_faults (.inr ⟨rfl, htop, hge⟩)

/-! ### JMP, JEQ and JNE -/

/-- An instruction with the effect of a jump completes for every register (R132 to R134). -/
theorem exec_of_branchEffect {i : Instr} {taken : Bool} {s : State} {r : RegIndex} (hn : ¬ Refuses i s)
    (heff : Effect i s = BranchEffect taken (regByte r) s) :
    exec i s = .next (s.setPc (if taken = true then (s.reg r).toNat else s.pc + 2)) :=
  exec_of_effect hn (heff ▸ ⟨r, rfl, rfl⟩)

theorem exec_jmp_regByte (s : State) (r : RegIndex) :
    exec (.jmp (regByte r)) s = .next (s.setPc (s.reg r).toNat) :=
  exec_of_branchEffect (i := .jmp (regByte r)) (taken := true) (not_refuses_of_not_spForm s nofun nofun nofun) rfl

theorem exec_jeq_regByte (s : State) (r : RegIndex) : exec (.jeq (regByte r)) s =
    .next (s.setPc (if equalBit s.fl = true then (s.reg r).toNat else s.pc + 2)) :=
  exec_of_branchEffect (not_refuses_of_not_spForm s nofun nofun nofun) rfl

theorem exec_jne_regByte (s : State) (r : RegIndex) : exec (.jne (regByte r)) s =
    .next (s.setPc (if equalBit s.fl = false then (s.reg r).toNat else s.pc + 2)) := by
  rw [exec_of_branchEffect (i := .jne (regByte r)) (not_refuses_of_not_spForm s nofun nofun nofun) rfl]
  simp only [Bool.not_eq_true']

/-- A Running block whose step leaves it as it is spends every budget (R161). -/
theorem runBudget_of_step_eq_self {s : State} (hrun : s.loop = .running) (h : step s = .next s) (n : Nat) :
    runBudget n s = (.cycleBudgetExceeded, s) := by
  induction n with
  | zero => simp only [runBudget, hrun]
  | succ n ih => rw [runBudget_succ_of_next hrun h, ih]

/-- A JMP to its own address changes nothing (R132). -/
theorem step_jmp_to_itself {s : State} {r : RegIndex} (hrun : s.loop = .running)
    (hi : InstrAtPc (.jmp (regByte r)) s) (hpc : (s.reg r).toNat = s.pc) : step s = .next s := by
  rw [step_of_instrAtPc hrun hi, exec_jmp_regByte, hpc]
  rfl

/-- Settles O40: the effect of JMP, its index fault, and its step to itself, repeated. -/
theorem jmpGoesToTheRegister : Obligations.JmpGoesToTheRegister :=
  ⟨decode_one_operand (m := .jmp) rfl, exec_jmp_regByte,
    fun s _ hge => faults_outOfBounds_of_not_wellFormed s (not_validReg_of_ge hge),
    fun _ _ n hrun hi hpc => runBudget_of_step_eq_self hrun (step_jmp_to_itself hrun hi hpc) n⟩

/-- Settles O41: the effect of JEQ, whose condition is bit 0 of FL, and its index fault. -/
theorem jeqTestsTheEqualBit : Obligations.JeqTestsTheEqualBit :=
  ⟨decode_one_operand (m := .jeq) rfl, exec_jeq_regByte,
    fun s _ hge => faults_outOfBounds_of_not_wellFormed s (not_validReg_of_ge hge)⟩

/-- Settles O42: the effect of JNE, whose condition is that of JEQ negated, and its index fault. -/
theorem jneTestsTheEqualBit : Obligations.JneTestsTheEqualBit :=
  ⟨decode_one_operand (m := .jne) rfl, exec_jne_regByte,
    fun s _ hge => faults_outOfBounds_of_not_wellFormed s (not_validReg_of_ge hge)⟩

end Sys2Proof.Machine
end

section
/-! PROOFS. 44_load_print_halt.md: LDI and PRN. Neither is a form that R122 refuses, and a register operand that is an
index is the whole condition of their effects; every other register byte is the index fault of R12. -/

namespace Sys2Proof.Machine

/-- LDI to a valid register completes (R140). -/
theorem exec_ldi_regByte (s : State) (r : RegIndex) (imm : Byte) :
    exec (.ldi (regByte r) imm) s = .next (wrote s r imm 3) :=
  exec_of_effect (not_refuses_of_two_operands (m := .ldi) rfl [regByte r, imm] s) ⟨r, rfl, rfl⟩

/-- Settles O44: the effect of LDI, whose second operand byte is the value itself and never an index, and the index
fault of its first one. -/
theorem ldiWritesTheImmediate : Obligations.LdiWritesTheImmediate :=
  ⟨decode_two_operands (m := .ldi) rfl, exec_ldi_regByte,
    fun s _ _ hge => faults_outOfBounds_of_not_wellFormed s (not_validReg_of_ge hge)⟩

/-- Settles O45: the effect of PRN, and its index fault, which emits nothing. -/
theorem prnEmitsTheRegister : Obligations.PrnEmitsTheRegister :=
  ⟨decode_one_operand (m := .prn) rfl, exec_prn_regByte,
    fun s _ hge => faults_outOfBounds_of_not_wellFormed s (not_validReg_of_ge hge)⟩

end Sys2Proof.Machine
end

section
/-! PROOFS. 60_exceptions.md: the host port (R158 to R161, R164, R165), the terminal loop states (R154), the causes of
faults (R150) and their order (R152). -/

namespace Sys2Proof.Machine

open Sys2Proof.Claims

/-! ### load and the accessors -/

theorem load_of_le {bytes : List Byte} {s : State} (h : bytes.length ≤ s.cfg.memCapacity) :
    load bytes s = .ok { s with mem := storeBytes 0 bytes s.mem } := by
  rw [load, if_pos h]

theorem load_of_gt {bytes : List Byte} {s : State} (h : s.cfg.memCapacity < bytes.length) :
    load bytes s = .error .programTooLarge := by
  rw [load, if_neg h.not_ge]

theorem load_error {bytes : List Byte} {s : State} {k : Fault} (h : load bytes s = .error k) :
    k = .programTooLarge ∧ s.cfg.memCapacity < bytes.length := by
  obtain hle | hgt := le_or_gt bytes.length s.cfg.memCapacity
  · cases (load_of_le hle).symm.trans h
  · cases (load_of_gt hgt).symm.trans h
    exact ⟨rfl, hgt⟩

/-- Bytes stored from address 0 up read back at their own positions (R159). -/
theorem read_storeBytes_zero {bytes : List Byte} {i : Nat} {b : Byte} (m : Memory) (h : bytes[i]? = some b) :
    Memory.read (storeBytes 0 bytes m) i = b := by
  obtain ⟨hi, rfl⟩ := List.getElem?_eq_some_iff.mp h
  simpa using read_storeBytes_inside bytes m 0 i hi

/-- Settles O55: the two branches of the length test, and what the stored bytes read as, inside and outside. -/
theorem loadIsAllOrNothing : Obligations.LoadIsAllOrNothing := by
  refine ⟨fun bytes s hle => ⟨_, load_of_le hle, fun i b => read_storeBytes_zero s.mem, fun a ha => ?_⟩,
    fun bytes s => load_of_gt⟩
  exact read_storeBytes_outside bytes s.mem (.inr (by omega))

theorem registerRead_val (s : State) (r : RegIndex) : registerRead r s = .ok (s.reg r) := by
  rw [registerRead, dif_pos r.isLt]

theorem registerRead_of_ge {idx : Nat} (s : State) (h : 8 ≤ idx) : registerRead idx s = .error .outOfBoundsAccess := by
  rw [registerRead, dif_neg h.not_gt]

theorem registerWrite_val (s : State) (r : RegIndex) (v : Byte) : registerWrite r v s = .ok (s.setReg r v) := by
  rw [registerWrite, dif_pos r.isLt]

theorem registerWrite_of_ge {idx : Nat} (s : State) (v : Byte) (h : 8 ≤ idx) :
    registerWrite idx v s = .error .outOfBoundsAccess := by
  rw [registerWrite, dif_neg h.not_gt]

theorem registerRead_error {idx : Nat} {s : State} {k : Fault} (h : registerRead idx s = .error k) :
    k = .outOfBoundsAccess ∧ 8 ≤ idx := by
  obtain hlt | hge := lt_or_ge idx 8
  · cases (registerRead_val s ⟨idx, hlt⟩).symm.trans h
  · cases (registerRead_of_ge s hge).symm.trans h
    exact ⟨rfl, hge⟩

theorem registerWrite_error {idx : Nat} {v : Byte} {s : State} {k : Fault} (h : registerWrite idx v s = .error k) :
    k = .outOfBoundsAccess ∧ 8 ≤ idx := by
  obtain hlt | hge := lt_or_ge idx 8
  · cases (registerWrite_val s ⟨idx, hlt⟩ v).symm.trans h
  · cases (registerWrite_of_ge s v hge).symm.trans h
    exact ⟨rfl, hge⟩

/-- Settles O56: the memory accessors are the instructions' own accesses, the register accessors the two branches of
their index test. -/
theorem accessorsAreBoundsChecked : Obligations.AccessorsAreBoundsChecked :=
  ⟨fun _ _ => memRead_of_lt,
    fun s a v h => ⟨_, storedAt_write s.mem a v, memWrite_of_lt v h⟩,
    fun _ _ v h => ⟨memRead_of_ge h, memWrite_of_ge v h⟩,
    fun s r v => ⟨registerRead_val s r, registerWrite_val s r v⟩,
    fun s _ v h => ⟨registerRead_of_ge s h, registerWrite_of_ge s v h⟩⟩

/-! ### Terminal loop states -/

/-- A run from a Halted block takes no step, whatever its budget (R80). -/
theorem runBudget_of_halted {s : State} (h : s.loop = .halted) (n : Nat) : runBudget n s = (.halted, s) := by
  cases n <;> simp only [runBudget, h]

theorem runBudget_state_of_terminal {s : State} (h : s.loop ≠ .running) (n : Nat) : (runBudget n s).2 = s := by
  cases hl : s.loop with
  | running => exact absurd hl h
  | halted => rw [runBudget_of_halted hl]
  | faulted k => rw [runBudget_of_faulted hl]

/-- Settles O15: a terminal block takes no step, and no host command writes the loop state. -/
theorem terminalStatesArePermanent : Obligations.TerminalStatesArePermanent := by
  refine fun s hs => ⟨step_of_terminal hs, runBudget_state_of_terminal hs, fun bytes t h => ?_, fun a v t h => ?_,
    fun idx v t h => ?_⟩
  · obtain ⟨_, rfl⟩ := load_ok h
    rfl
  · obtain ⟨_, rfl⟩ := memoryWrite_ok h
    rfl
  · obtain ⟨_, rfl⟩ := registerWrite_ok h
    rfl

/-! ### A refused step -/

theorem stepCommand_of_refused {s : State} {r : Refusal} (h : step s = .refused r) :
    stepCommand s = (s, .refused r) := by
  rw [stepCommand, h]

/-- A run stops at the refusal (R158). -/
theorem runBudget_succ_of_refused {s : State} {r : Refusal} (hrun : s.loop = .running) (h : step s = .refused r)
    (n : Nat) : runBudget (n + 1) s = (.refused r, s) := by
  simp only [runBudget, hrun, stepCommand_of_refused h]

/-- Settles O36: the form at pc is refused by `exec`, and so by the step, the step command and the run. -/
theorem refusalChangesNoState : Obligations.RefusalChangesNoState := by
  intro s i hform hrun hpol hi
  have hstep : step s = .refused .spOperand := by
    rw [step_of_instrAtPc hrun hi]
    exact exec_of_refuses ⟨hpol, hform⟩
  exact ⟨hstep, stepCommand_of_refused hstep, runBudget_succ_of_refused hrun hstep⟩

/-! ### A run with a budget -/

/-- A fault is a next state, so a step answers one or is refused (R13, R90). -/
theorem step_next_or_refused (s : State) : (∃ t, step s = .next t) ∨ ∃ r, step s = .refused r := by
  by_cases hrun : s.loop = .running
  · obtain ⟨k, _, hs⟩ | ⟨i, _, hs⟩ := step_running_cases hrun
    · exact .inl ⟨_, hs⟩
    · rw [hs]
      by_cases hr : Refuses i s
      · exact .inr ⟨_, exec_of_refuses hr⟩
      · exact .inl (exec_answers_next hr)
  · exact .inl ⟨s, step_of_terminal hrun⟩

/-- Why a run with `rest` steps left ends in `t` without a further step (R158, R161). -/
def EndsHere (rest : Nat) (t : State) : RunEnd → Prop
  | .cycleBudgetExceeded => rest = 0 ∧ t.loop = .running
  | .halted => t.loop = .halted
  | .faulted k => t.loop = .faulted k
  | .refused r => 0 < rest ∧ step t = .refused r

/-- Everything a run can do first: end where it is, or spend one step of its budget. -/
theorem runBudget_cases (budget : Nat) (s : State) :
    (∃ e, runBudget budget s = (e, s) ∧ EndsHere budget s e) ∨
    (∃ n u, budget = n + 1 ∧ step s = .next u ∧ runBudget budget s = runBudget n u) := by
  cases hl : s.loop with
  | halted => exact .inl ⟨_, runBudget_of_halted hl budget, hl⟩
  | faulted k => exact .inl ⟨_, runBudget_of_faulted hl budget, hl⟩
  | running =>
    cases budget with
    | zero => exact .inl ⟨.cycleBudgetExceeded, by simp only [runBudget, hl], rfl, hl⟩
    | succ n =>
      obtain ⟨u, hu⟩ | ⟨r, hr⟩ := step_next_or_refused s
      · exact .inr ⟨n, u, rfl, hu, runBudget_succ_of_next hl hu n⟩
      · exact .inl ⟨_, runBudget_succ_of_refused hl hr n, n.succ_pos, hr⟩

theorem run_succ_of_next {M : Host.Core} {s u : M.State} (h : M.step s = .next u) (n : Nat) :
    M.run (n + 1) s = M.run n u := by
  rw [Host.Core.run, h]

/-- A run is some steps of its budget, to a state where it ends with the rest. -/
theorem run_of_runBudget {budget : Nat} {s t : State} {e : RunEnd} (h : runBudget budget s = (e, t)) :
    ∃ n rest, budget = n + rest ∧ Host.Core.run core n s = .next t ∧ EndsHere rest t e := by
  induction budget generalizing s with
  | zero =>
    obtain ⟨e', he, hend⟩ | ⟨n, u, hn, _⟩ := runBudget_cases 0 s
    · cases he.symm.trans h
      exact ⟨0, 0, rfl, rfl, hend⟩
    · cases hn
  | succ budget ih =>
    obtain ⟨e', he, hend⟩ | ⟨n, u, hn, hu, hrest⟩ := runBudget_cases (budget + 1) s
    · cases he.symm.trans h
      exact ⟨0, _, (Nat.zero_add _).symm, rfl, hend⟩
    · cases hn
      obtain ⟨n, rest, rfl, hrun, hend⟩ := ih (hrest.symm.trans h)
      exact ⟨n + 1, rest, by omega, (run_succ_of_next (M := core) hu n).trans hrun, hend⟩

/-- Settles O57: by the steps of the run and the reason for its end, which for CycleBudgetExceeded is that no step is
left and for a refusal that one is. -/
theorem budgetBoundsTheRun : Obligations.BudgetBoundsTheRun := by
  intro budget s t e h
  obtain ⟨n, rest, rfl, hrun, hend⟩ := run_of_runBudget h
  cases e with
  | cycleBudgetExceeded =>
    obtain ⟨rfl, hl⟩ := hend
    exact ⟨hl, hrun⟩
  | halted | faulted k => exact ⟨hend, n, Nat.le_add_right n rest, hrun⟩
  | refused r =>
    obtain ⟨hpos, hr⟩ := hend
    exact ⟨hr, n, Nat.lt_add_of_pos_right hpos, hrun⟩

/-! ### The causes of faults -/

theorem BadReg.not_validReg {r : Byte} {k : Fault} (h : BadReg r k) : ¬ validReg r = true :=
  not_validReg_of_ge h.2

theorem BadPair.not_validReg {a b : Byte} {k : Fault} (h : BadPair a b k) : ¬ (validReg a && validReg b) = true := by
  rw [Bool.and_eq_true]
  rintro ⟨ha, hb⟩
  exact h.2.elim (not_validReg_of_ge · ha) (not_validReg_of_ge · hb)

/-- Once the register indices are valid, only the stack instructions and DIV and MOD can still raise. -/
theorem Raises.cases_of_wellFormed {i : Instr} {s : State} {k : Fault} (h : Raises i s k) (hi : i.WellFormed) :
    ((∃ r, i = .push r) ∧ PushRaises s k) ∨
    ((∃ r, i = .call r) ∧ CallRaises s k) ∨
    ((i = .ret ∨ ∃ r, i = .pop r) ∧ PopRaises s k) ∨
    (∃ a b : RegIndex, (i = .div (regByte a) (regByte b) ∨ i = .mod (regByte a) (regByte b)) ∧ s.reg b = 0 ∧
      k = .divisionByZero) := by
  cases i with
  | hlt => exact h.elim
  | ret => exact .inr (.inr (.inl ⟨.inl rfl, h⟩))
  | prn r | jmp r | jeq r | jne r | not r | ldi r _ => exact absurd hi (BadReg.not_validReg h)
  | add a b | sub a b | mul a b | cmp a b | and a b | or a b | xor a b | shl a b | shr a b =>
    exact absurd hi (BadPair.not_validReg h)
  | push r => exact .inl ⟨⟨r, rfl⟩, (h.resolve_left fun hbad => hbad.not_validReg hi).2⟩
  | call r => exact .inr (.inl ⟨⟨r, rfl⟩, (h.resolve_left fun hbad => hbad.not_validReg hi).2⟩)
  | pop r => exact .inr (.inr (.inl ⟨.inr ⟨r, rfl⟩, (h.resolve_left fun hbad => hbad.not_validReg hi).2⟩))
  | div a b | mod a b =>
    obtain ⟨p, q, rfl, rfl, h0, rfl⟩ := h.resolve_left fun hbad => hbad.not_validReg hi
    exact .inr (.inr (.inr ⟨p, q, by simp, h0, rfl⟩))

/-- A push of the instruction at pc raises for one of the table's causes. -/
theorem PushRaises.causedBy {i : Instr} {r : Byte} {s : State} {k : Fault} (h : PushRaises s k) (hi : InstrAtPc i s)
    (hform : i = .push r ∨ i = .call r) : CausedBy s k := by
  obtain ⟨rfl, h0⟩ | ⟨rfl, h0, hge⟩ := h
  · exact ⟨⟨r, hform.imp (fun hr : i = .push r => hr ▸ hi) fun hr : i = .call r => hr ▸ hi⟩, h0⟩
  · exact .inr (.inr ⟨i, hi, .inr (.inr (.inl ⟨⟨r, hform⟩, h0, toNat_pred h0 ▸ hge⟩))⟩)

theorem PopRaises.causedBy {i : Instr} {s : State} {k : Fault} (h : PopRaises s k) (hi : InstrAtPc i s)
    (hform : i = .ret ∨ ∃ r, i = .pop r) : CausedBy s k := by
  obtain ⟨rfl, htop⟩ | ⟨rfl, _, hge⟩ := h
  · exact ⟨hform.imp (fun hr : i = .ret => hr ▸ hi) fun ⟨r, hr⟩ => ⟨r, hr ▸ hi⟩, htop⟩
  · exact .inr (.inr ⟨i, hi, .inr (.inr (.inr ⟨hform, hge⟩))⟩)

/-- A fault that the instruction at pc raises has its cause in R150's table. -/
theorem Raises.causedBy {i : Instr} {s : State} {k : Fault} (h : Raises i s k) (hi : InstrAtPc i s) :
    CausedBy s k := by
  by_cases hwf : i.WellFormed
  · obtain ⟨⟨r, rfl⟩, hpush⟩ | ⟨⟨r, rfl⟩, hcall⟩ | ⟨hform, hpop⟩ | ⟨a, b, hform, h0, rfl⟩ := h.cases_of_wellFormed hwf
    · exact hpush.causedBy hi (.inl rfl)
    · obtain ⟨rfl, hbig⟩ | ⟨_, hpush⟩ := hcall
      · exact .inr (.inr ⟨_, hi, .inr (.inl ⟨r, rfl, hbig⟩)⟩)
      · exact hpush.causedBy hi (.inr rfl)
    · exact hpop.causedBy hi hform
    · refine ⟨a, b, ?_, h0⟩
      obtain rfl | rfl := hform
      · exact .inl hi
      · exact .inr hi
  · obtain rfl := h.eq_outOfBounds_of_not_wellFormed hwf
    exact .inr (.inr ⟨i, hi, .inl hwf⟩)

theorem FetchRaises.causedBy {s : State} {k : Fault} (h : FetchRaises s k) : CausedBy s k := by
  obtain ⟨rfl, hpc⟩ | ⟨rfl, hpc, hnone⟩ | ⟨rfl, _, m, hm, n, hn, hge⟩ := h
  · exact .inl hpc
  · exact ⟨hpc, decodeOpcode_eq_none_iff.mp hnone⟩
  · exact .inr (.inl ⟨m, n + 1, hm, by omega, by omega, by omega⟩)

/-- No instruction that completes in a Running block leaves it Faulted. -/
theorem Effect.loop_ne_faulted {i : Instr} {s t : State} (h : Effect i s t) (hrun : s.loop = .running) (k : Fault) :
    t.loop ≠ .faulted k := by
  intro ht
  obtain ⟨_, hloop⟩ | ⟨_, hloop⟩ := h.loop_cases
  · cases hloop.symm.trans ht
  · cases hrun.symm.trans (hloop.symm.trans ht)

/-- A Running step that ends Faulted has raised, in the fetch phases or in the instruction at pc. -/
theorem raises_of_step_faulted {s t : State} {k : Fault} (hrun : s.loop = .running) (h : step s = .next t)
    (ht : t.loop = .faulted k) : FetchRaises s k ∨ ∃ i, InstrAtPc i s ∧ Raises i s k := by
  obtain ⟨hl, _⟩ | ⟨_, k', hk, rfl⟩ | ⟨_, i, hi, he⟩ := step_next_cases h
  · exact absurd hrun hl
  · cases ht
    exact .inl hk
  · obtain ⟨k', hk, rfl⟩ | heff := exec_next_cases he
    · cases ht
      exact .inr ⟨i, instrAtPc_iff_holdsAtPc.mpr hi, hk⟩
    · exact absurd ht (heff.loop_ne_faulted hrun k)

/-- Settles O18: the codes by evaluation, the causes by what the step has raised, and the host commands' errors by the
test each of them makes. -/
theorem faultKindsHaveTheirCauses : Obligations.FaultKindsHaveTheirCauses := by
  refine ⟨rfl, fun s t k hrun hstep ht => ?_, fun _ _ _ => load_error, fun _ _ _ => memRead_error,
    fun _ _ _ _ => memWrite_error, fun _ _ _ => registerRead_error, fun _ _ _ _ => registerWrite_error⟩
  obtain hfetch | ⟨i, hi, hraise⟩ := raises_of_step_faulted hrun hstep ht
  · exact hfetch.causedBy
  · exact hraise.causedBy hi

/-! ### The first fault in order -/

theorem firstFault_of_not_wellFormed {i : Instr} (s : State) (h : ¬ i.WellFormed) :
    firstFault i s = some .outOfBoundsAccess :=
  if_pos (Bool.eq_false_iff.mpr h)

/-- After its index check PUSH looks at SP and then at the cell below it (R120). -/
theorem firstFault_push {r : Byte} (s : State) (h : (Instr.push r).WellFormed) :
    firstFault (.push r) s = if s.sp = 0 then some .stackOverflow
      else if s.cfg.memCapacity ≤ s.sp.toNat - 1 then some .outOfBoundsAccess else none := by
  simp [firstFault, h]

/-- With a return address that fits a byte, the checks of CALL are those of PUSH (R130). -/
theorem firstFault_call_of_fits {r : Byte} {s : State} (hr : (Instr.call r).WellFormed) (h : s.pc + 2 ≤ 255) :
    firstFault (.call r) s = firstFault (.push r) s := by
  rw [firstFault_push s hr]
  simp [firstFault, hr, h.not_gt]

theorem firstFault_call_of_big {r : Byte} {s : State} (h : 255 < s.pc + 2) :
    firstFault (.call r) s = some .outOfBoundsAccess := by
  simp [firstFault, h]

/-- Both instructions that pop have one check after their index check (R121). -/
theorem firstFault_of_pops {i : Instr} (s : State) (h : i = .ret ∨ ∃ r, i = .pop r) (hi : i.WellFormed) :
    firstFault i s = if s.cfg.stackTop ≤ s.sp.toNat then some .stackUnderflow else none := by
  obtain rfl | ⟨r, rfl⟩ := h <;> simp [firstFault, hi]

theorem regs_getElem?_regByte (s : State) (q : RegIndex) : s.regs[(regByte q).toNat]? = some (s.reg q) := by
  simp [regByte_toNat, State.reg]

theorem firstFault_of_divides {i : Instr} {s : State} {a b : RegIndex}
    (h : i = .div (regByte a) (regByte b) ∨ i = .mod (regByte a) (regByte b)) :
    firstFault i s = if s.reg b = 0 then some .divisionByZero else none := by
  obtain rfl | rfl := h <;> simp [firstFault, Instr.wellFormed, regs_getElem?_regByte]

theorem PushRaises.firstFault_eq {r : Byte} {s : State} {k : Fault} (h : PushRaises s k)
    (hr : (Instr.push r).WellFormed) : firstFault (.push r) s = some k := by
  rw [firstFault_push s hr]
  obtain ⟨rfl, h0⟩ | ⟨rfl, h0, hge⟩ := h
  · rw [if_pos h0]
  · rw [if_neg h0, if_pos (toNat_pred h0 ▸ hge)]

theorem Room.firstFault_eq_none {r : Byte} {s : State} (h : Room s) (hr : (Instr.push r).WellFormed) :
    firstFault (.push r) s = none := by
  obtain ⟨h0, hlt⟩ := h
  rw [firstFault_push s hr, if_neg h0, if_neg (toNat_pred h0 ▸ hlt.not_ge)]

/-- Below a legal STACK_TOP every cell is in memory, so a pop raises StackUnderflow only (R121). -/
theorem PopRaises.eq_stackUnderflow {s : State} {k : Fault} (h : PopRaises s k) (hv : s.cfg.Valid) :
    k = .stackUnderflow ∧ s.cfg.stackTop ≤ s.sp.toNat := by
  obtain hunder | ⟨_, htop, hge⟩ := h
  · exact hunder
  · obtain ⟨_, _, _, hle, _⟩ := hv
    omega

/-- The fault an instruction raises is the first that applies (R152). -/
theorem Raises.firstFault_eq {i : Instr} {s : State} {k : Fault} (h : Raises i s k) (hv : s.cfg.Valid) :
    firstFault i s = some k := by
  by_cases hwf : i.WellFormed
  · obtain ⟨⟨r, rfl⟩, hpush⟩ | ⟨⟨r, rfl⟩, hcall⟩ | ⟨hform, hpop⟩ | ⟨a, b, hform, h0, rfl⟩ := h.cases_of_wellFormed hwf
    · exact hpush.firstFault_eq hwf
    · obtain ⟨rfl, hbig⟩ | ⟨hfit, hpush⟩ := hcall
      · exact firstFault_call_of_big hbig
      · rw [firstFault_call_of_fits hwf hfit]
        exact hpush.firstFault_eq hwf
    · obtain ⟨rfl, htop⟩ := hpop.eq_stackUnderflow hv
      rw [firstFault_of_pops s hform hwf, if_pos htop]
    · rw [firstFault_of_divides hform, if_pos h0]
  · rw [h.eq_outOfBounds_of_not_wellFormed hwf, firstFault_of_not_wellFormed s hwf]

/-- Of an instruction that completes none applies. -/
theorem Effect.firstFault_eq_none {i : Instr} {s t : State} (h : Effect i s t) : firstFault i s = none := by
  have hwf : i.WellFormed := h.wellFormed
  cases i with
  | hlt | prn r | jmp r | jeq r | jne r | not r | ldi r _ => simp [firstFault, hwf]
  | add a b | sub a b | mul a b | cmp a b | and a b | or a b | xor a b | shl a b | shr a b => simp [firstFault, hwf]
  | push r =>
    obtain ⟨_, _, hroom, _⟩ := h
    exact hroom.firstFault_eq_none hwf
  | call r =>
    obtain ⟨_, _, hfit, hroom, _⟩ := h
    rw [firstFault_call_of_fits hwf hfit]
    exact hroom.firstFault_eq_none hwf
  | ret =>
    obtain ⟨⟨htop, _⟩, _⟩ := h
    rw [firstFault_of_pops s (.inl rfl) hwf, if_neg htop.not_ge]
  | pop r =>
    obtain ⟨_, _, ⟨htop, _⟩, _⟩ := h
    rw [firstFault_of_pops s (.inr ⟨r, rfl⟩) hwf, if_neg htop.not_ge]
  | div a b | mod a b =>
    obtain ⟨p, q, rfl, rfl, hq, _⟩ := h
    rw [firstFault_of_divides (a := p) (b := q) (by simp), if_neg hq]

/-- Settles O17: the fetch phases in their order, and then the one way of three that is left to the instruction. -/
theorem firstFaultInOrderIsReported : Obligations.FirstFaultInOrderIsReported := by
  refine fun s hv hrun => ⟨step_of_pc_ge hrun, fun hpc hnone => ?_, fun m hpc hm hge => ?_, fun i hi hform => ?_⟩
  · exact step_of_fetch_error hrun (fetch_of_illegalOpcode hpc (decodeOpcode_eq_none_iff.mp hnone))
  · exact step_of_fetch_error hrun (fetch_of_operand_ge hpc hm (by omega) le_rfl hge)
  · have hstep : step s = exec i s := step_of_instrAtPc hrun hi
    obtain ⟨⟨hpol, hsp⟩, _⟩ | ⟨_, k, hk, ho⟩ | ⟨_, t, ht, ho⟩ := exec_cases i s
    · exact absurd ⟨hsp, hpol⟩ hform
    · rw [hk.firstFault_eq hv]
      exact hstep.trans ho
    · rw [ht.firstFault_eq_none]
      exact ⟨t, hstep.trans ho, ht.loop_ne_faulted hrun⟩

end Sys2Proof.Machine
end

section
/-! PROOFS. 30_encoding.md: decoding and encoding are inverse to each other (R60 to R69, R73). An instruction is a
mnemonic with as many operand bytes as it declares, taken apart by `encode` and put together by `Mnemonic.build`. -/

namespace Sys2Proof

/-- The encoding of an instruction is its opcode byte and the operand bytes it was built from. -/
theorem encode_build (m : Mnemonic) (ops : List Byte) (hlen : ops.length = m.operandCount) :
    encode (m.build ops) = m.opcode :: ops := by
  match m, ops, hlen with
  | .hlt, [], _ | .ret, [], _ => rfl
  | .push, [_], _ | .pop, [_], _ | .prn, [_], _ | .call, [_], _ => rfl
  | .jmp, [_], _ | .jeq, [_], _ | .jne, [_], _ | .not, [_], _ => rfl
  | .ldi, [_, _], _ | .cmp, [_, _], _ => rfl
  | .add, [_, _], _ | .sub, [_, _], _ | .mul, [_, _], _ | .div, [_, _], _ | .mod, [_, _], _ => rfl
  | .and, [_, _], _ | .or, [_, _], _ | .xor, [_, _], _ | .shl, [_, _], _ | .shr, [_, _], _ => rfl

theorem decode_encode_append (i : Instr) (rest : List Byte) : decode (encode i ++ rest) = .ok (i, rest) := by
  obtain ⟨ops, henc, hlen, hbuild⟩ := encode_eq_cons i
  rw [henc, List.cons_append, decode_cons_some (decodeOpcode_opcode _) (by simp [hlen]), ← hlen, List.take_left,
    List.drop_left, hbuild]

theorem eq_encode_append_of_decode {bytes rest : List Byte} {i : Instr} (h : decode bytes = .ok (i, rest)) :
    bytes = encode i ++ rest := by
  obtain ⟨b, m, tl, rfl, hm, hlen, rfl, rfl⟩ := decode_ok h
  rw [encode_build m _ (List.length_take_of_le hlen), List.cons_append, List.take_append_drop,
    eq_opcode_of_decodeOpcode hm]

/-- Settles O6: the decoder takes the declared number of operand bytes, which are those that the encoder puts after the
opcode byte. -/
theorem decodeAndEncodeAgree : Obligations.DecodeAndEncodeAgree :=
  ⟨decode_encode_append, fun _ _ _ => eq_encode_append_of_decode⟩

/-- Settles O8: each word is the encoding of its instruction. -/
theorem sampleWordsDecode : Obligations.SampleWordsDecode :=
  ⟨decode_encode_append (.ldi 0 8) [], decode_encode_append (.add 0 1) [], decode_encode_append (.cmp 6 6) [],
    decode_encode_append (.not 3) [], decode_encode_append (.push 0) [], decode_encode_append (.call 1) [],
    decode_encode_append .ret [], decode_encode_append (.prn 0) [], decode_encode_append .hlt []⟩

end Sys2Proof
end

section
/-! PROOFS. What an instruction leaves unchanged: the parameters (10_state.md R38), the registers that R23 does not
name, and memory outside the address it stores to (20_memory.md). The case analysis over the instructions is made once,
in `Effect.frame`. -/

namespace Sys2Proof.Machine

open Sys2Proof.Claims

theorem wrote_reg_other {p q : RegIndex} (s : State) (v : Byte) (n : Nat) (h : p ≠ q) :
    (wrote s p v n).reg q = s.reg q :=
  State.setReg_reg_other s v h

theorem pushed_reg_other {q : RegIndex} (s : State) (v : Byte) (pc : Nat) (h : q ≠ 7) :
    (pushed s v pc).reg q = s.reg q :=
  State.setReg_reg_other s (s.sp - 1) (Ne.symm h)

theorem State.setSp_reg_other {q : RegIndex} (s : State) (v : Byte) (h : q ≠ 7) : (s.setSp v).reg q = s.reg q :=
  State.setReg_reg_other s v (Ne.symm h)

/-! ### The frame of an effect -/

/-- What an instruction that completes may change of the parameters, the registers and memory. -/
structure Frame (i : Instr) (s t : State) : Prop where
  cfg : t.cfg = s.cfg
  regs : ∀ q, ¬ WritesRegister i q → t.reg q = s.reg q
  mem : t.mem = s.mem ∨ ∃ a v, StoreAddress i s a ∧ a < s.cfg.memCapacity ∧ t.mem = Memory.write s.mem a v

theorem Effect.frame {i : Instr} {s t : State} (h : Effect i s t) : Frame i s t := by
  cases i with
  | hlt =>
    obtain rfl := h
    exact ⟨rfl, fun _ _ => rfl, .inl rfl⟩
  | ret =>
    obtain ⟨_, rfl⟩ := h
    exact ⟨rfl, fun _ hq => State.setSp_reg_other s _ hq, .inl rfl⟩
  | push r =>
    obtain ⟨p, _, ⟨hsp, hlt⟩, rfl⟩ := h
    exact ⟨rfl, fun _ hq => pushed_reg_other s _ _ hq, .inr ⟨_, _, toNat_pred hsp, hlt, rfl⟩⟩
  | call r =>
    obtain ⟨p, _, _, ⟨hsp, hlt⟩, rfl⟩ := h
    exact ⟨rfl, fun _ hq => pushed_reg_other s _ _ hq, .inr ⟨_, _, toNat_pred hsp, hlt, rfl⟩⟩
  | pop r =>
    obtain ⟨p, rfl, _, rfl⟩ := h
    split
    · exact ⟨rfl, fun _ hq => State.setSp_reg_other s _ fun h7 => hq (.inr h7), .inl rfl⟩
    · refine ⟨rfl, fun q hq => ?_, .inl rfl⟩
      rw [State.setPc_reg, State.setReg_reg_other _ _ fun hp => hq (.inl (congrArg regByte hp)),
        State.setSp_reg_other s _ fun h7 => hq (.inr h7)]
  | prn r | jmp r | jeq r | jne r =>
    obtain ⟨p, _, rfl⟩ := h
    exact ⟨rfl, fun _ _ => rfl, .inl rfl⟩
  | not r | ldi r _ =>
    obtain ⟨p, rfl, rfl⟩ := h
    exact ⟨rfl, fun _ hq => wrote_reg_other s _ _ fun hp => hq (congrArg regByte hp), .inl rfl⟩
  | cmp a b =>
    obtain ⟨p, q, _, _, rfl⟩ := h
    exact ⟨rfl, fun _ _ => rfl, .inl rfl⟩
  | add a b | sub a b | mul a b | and a b | or a b | xor a b | shl a b | shr a b =>
    obtain ⟨p, q, rfl, _, rfl⟩ := h
    exact ⟨rfl, fun _ hq => wrote_reg_other s _ _ fun hp => hq (congrArg regByte hp), .inl rfl⟩
  | div a b | mod a b =>
    obtain ⟨p, q, rfl, _, _, rfl⟩ := h
    exact ⟨rfl, fun _ hq => wrote_reg_other s _ _ fun hp => hq (congrArg regByte hp), .inl rfl⟩

/-- A fault changes none of the three, so the frame holds on every path of an instruction. -/
theorem exec_frame {i : Instr} {s t : State} (h : exec i s = .next t) : Frame i s t := by
  obtain ⟨k, _, rfl⟩ | he := exec_next_cases h
  · exact ⟨rfl, fun _ _ => rfl, .inl rfl⟩
  · exact he.frame

theorem Frame.read_mem {i : Instr} {s t : State} (h : Frame i s t) {a : Nat} (ha : ¬ StoreAddress i s a) :
    Memory.read t.mem a = Memory.read s.mem a := by
  obtain hmem | ⟨a', v, ha', _, hmem⟩ := h.mem
  · rw [hmem]
  · have hne : a ≠ a' := fun he => ha (he ▸ ha')
    rw [hmem, Memory.read_write_other s.mem v hne]

/-- Settles O50: the frame of `exec`, on the path of a fault too. -/
theorem registersWrittenAreTheNamedOnes : Obligations.RegistersWrittenAreTheNamedOnes :=
  fun _ _ _ q h => (exec_frame h).regs q

/-! ### The loop state and the parameters -/

theorem exec_loop_cases {i : Instr} {s t : State} (h : exec i s = .next t) :
    t.loop = s.loop ∨ (i = .hlt ∧ t.loop = .halted) ∨ ∃ k, t = faultedIn s k := by
  obtain ⟨k, _, rfl⟩ | he := exec_next_cases h
  · exact .inr (.inr ⟨k, rfl⟩)
  · obtain hhlt | ⟨_, hloop⟩ := he.loop_cases
    · exact .inr (.inl hhlt)
    · exact .inl hloop

theorem step_cfg {s t : State} (h : step s = .next t) : t.cfg = s.cfg := by
  obtain ⟨_, rfl⟩ | ⟨_, k, _, rfl⟩ | ⟨_, i, _, he⟩ := step_next_cases h
  · rfl
  · rfl
  · exact (exec_frame he).cfg

/-- Settles O51: the loop state by the effects of the instructions, the parameters by their frame. -/
theorem loopStateAndParametersFrame : Obligations.LoopStateAndParametersFrame := by
  refine ⟨fun i s t => exec_loop_cases, fun s t => step_cfg, fun bytes s t h => ?_, fun a v s t h => ?_,
    fun idx v s t h => ?_⟩
  · obtain ⟨_, rfl⟩ := load_ok h
    rfl
  · obtain ⟨_, rfl⟩ := memoryWrite_ok h
    rfl
  · obtain ⟨_, rfl⟩ := registerWrite_ok h
    rfl

/-! ### Who reads memory -/

/-- No fault's cause reads memory. -/
theorem raises_setMem {i : Instr} {s : State} {k : Fault} (m : Memory) :
    Raises i { s with mem := m } k ↔ Raises i s k := by
  cases i <;> exact Iff.rfl

/-- An instruction whose effect carries memory through has the same outcome whatever memory holds: neither the refusal
nor a fault looks at it. -/
theorem exec_setMem {i : Instr} {s : State} {m : Memory}
    (h : ∀ t, Effect i s t → Effect i { s with mem := m } { t with mem := m }) :
    exec i { s with mem := m } = withMem m (exec i s) := by
  obtain ⟨hr, ho⟩ | ⟨hn, k, hk, ho⟩ | ⟨hn, t, ht, ho⟩ := exec_cases i s
  · rw [ho]
    exact exec_of_refuses hr
  · rw [ho]
    exact exec_of_raises hn ((raises_setMem m).mpr hk)
  · rw [ho]
    exact exec_of_effect hn (h t ht)

/-- The four stack instructions apart, memory is carried through. -/
theorem Effect.setMem {i : Instr} {s t : State} (m : Memory) (hpush : ∀ r, i ≠ .push r) (hcall : ∀ r, i ≠ .call r)
    (hpop : ∀ r, i ≠ .pop r) (hret : i ≠ .ret) (h : Effect i s t) :
    Effect i { s with mem := m } { t with mem := m } := by
  cases i with
  | push r => exact absurd rfl (hpush r)
  | call r => exact absurd rfl (hcall r)
  | pop r => exact absurd rfl (hpop r)
  | ret => exact absurd rfl hret
  | hlt =>
    obtain rfl := h
    rfl
  | prn r | jmp r | jeq r | jne r | not r | ldi r _ =>
    obtain ⟨p, hp, rfl⟩ := h
    exact ⟨p, hp, rfl⟩
  | add a b | sub a b | mul a b | cmp a b | and a b | or a b | xor a b | shl a b | shr a b =>
    obtain ⟨p, q, hp, hq, rfl⟩ := h
    exact ⟨p, q, hp, hq, rfl⟩
  | div a b | mod a b =>
    obtain ⟨p, q, hp, hq, h0, rfl⟩ := h
    exact ⟨p, q, hp, hq, h0, rfl⟩

section TopOfStack

variable {s : State} {m : Memory} (hread : Memory.read m s.sp.toNat = Memory.read s.mem s.sp.toNat)

include hread

/-- POP reads the byte at SP and no other. -/
theorem exec_pop_setMem (r : Byte) : exec (.pop r) { s with mem := m } = withMem m (exec (.pop r) s) := by
  refine exec_setMem fun t ht => ?_
  obtain ⟨p, hp, hitem, rfl⟩ := ht
  refine ⟨p, hp, hitem, ?_⟩
  rw [← hread]
  split <;> rfl

/-- RET reads the byte at SP and no other. -/
theorem exec_ret_setMem : exec .ret { s with mem := m } = withMem m (exec .ret s) := by
  refine exec_setMem fun t ht => ?_
  obtain ⟨hitem, rfl⟩ := ht
  refine ⟨hitem, ?_⟩
  rw [← hread]
  rfl

end TopOfStack

/-- Settles O49: the frame of `exec` says what is stored, `exec_setMem` what is read. -/
theorem onlyTheStackTouchesMemory : Obligations.OnlyTheStackTouchesMemory :=
  ⟨fun _ _ _ _ h => (exec_frame h).read_mem,
    fun _ _ m hpush hcall hpop hret => exec_setMem fun _ => Effect.setMem m hpush hcall hpop hret,
    fun _ _ r hread => ⟨exec_pop_setMem hread r, exec_ret_setMem hread⟩⟩

end Sys2Proof.Machine
end

section
/-! PROOFS. The block invariant (10_state.md R26, R32, R33, R36; 00_scope.md R7): it holds at construction, every step
and every host command keeps it, and so it holds of every reachable state. -/

namespace Sys2Proof.Machine

open Sys2Proof.Claims

/-! ### Construction -/

theorem blockInv_construct {c : Config} (h : c.Valid) : BlockInv (State.construct c) where
  cfgValid := h
  memCanonical := ⟨List.Pairwise.nil, nofun⟩
  memInRange := nofun
  flAtMostOne := by
    obtain ⟨_, _, _, _, _, hfl⟩ := h
    exact hfl
  pcBound _ := Nat.zero_le 256
  faultKind := ⟨nofun, nofun⟩

/-- Settles O2: R39's values meet the invariant, and the reset state is constructed with R7's defaults. -/
theorem constructionMeetsTheInvariant : Obligations.ConstructionMeetsTheInvariant :=
  ⟨fun _ => blockInv_construct, blockInv_construct (by decide)⟩

/-! ### Host commands -/

/-- Canonical memory with all its cells in range can be put for the block's memory. -/
theorem BlockInv.setMem {s : State} (h : BlockInv s) {m : Memory} (hwf : Memory.wf m)
    (hrange : ∀ c ∈ m, c.1 < s.cfg.memCapacity) : BlockInv { s with mem := m } :=
  { h with memCanonical := hwf, memInRange := hrange }

/-- A write in range leaves all cells in range. -/
theorem BlockInv.write_inRange {s : State} (h : BlockInv s) {a : Nat} (v : Byte) (ha : a < s.cfg.memCapacity) :
    ∀ c ∈ Memory.write s.mem a v, c.1 < s.cfg.memCapacity := by
  intro c hc
  obtain rfl | hc := Memory.mem_write hc
  · exact ha
  · exact h.memInRange c hc

/-- Bytes stored from address 0 up, at most as many as there are cells, leave all cells in range. -/
theorem BlockInv.storeBytes_inRange {s : State} (h : BlockInv s) {bytes : List Byte}
    (hlen : bytes.length ≤ s.cfg.memCapacity) : ∀ c ∈ storeBytes 0 bytes s.mem, c.1 < s.cfg.memCapacity := by
  intro c hc
  obtain ⟨_, hlt⟩ | hc := mem_storeBytes hc
  · omega
  · exact h.memInRange c hc

/-- The invariant says nothing of the registers. -/
theorem BlockInv.setReg {s : State} (h : BlockInv s) (r : RegIndex) (v : Byte) : BlockInv (s.setReg r v) :=
  { h with }

theorem BlockInv.load {bytes : List Byte} {s t : State} (hs : BlockInv s) (h : load bytes s = .ok t) :
    BlockInv t := by
  obtain ⟨hlen, rfl⟩ := load_ok h
  exact hs.setMem (storeBytes_wf bytes hs.memCanonical 0) (hs.storeBytes_inRange hlen)

theorem BlockInv.memoryWrite {a : Nat} {v : Byte} {s t : State} (hs : BlockInv s) (h : memoryWrite a v s = .ok t) :
    BlockInv t := by
  obtain ⟨ha, rfl⟩ := memoryWrite_ok h
  exact hs.setMem (Memory.write_wf hs.memCanonical a v) (hs.write_inRange v ha)

theorem BlockInv.registerWrite {idx : Nat} {v : Byte} {s t : State} (hs : BlockInv s)
    (h : registerWrite idx v s = .ok t) : BlockInv t := by
  obtain ⟨_, rfl⟩ := registerWrite_ok h
  exact hs.setReg _ v

/-- Settles O4: `load` and `memory_write` keep memory canonical and in range, `register_write` writes a register. -/
theorem hostCommandsKeepTheInvariant : Obligations.HostCommandsKeepTheInvariant :=
  ⟨fun _ _ _ => BlockInv.load, fun _ _ _ _ => BlockInv.memoryWrite, fun _ _ _ _ => BlockInv.registerWrite⟩

/-! ### A step that takes a fault -/

/-- R150's table has no cause for the two kinds that a step never raises (R115, R160). -/
theorem kind_of_causedBy {s : State} {k : Fault} (h : CausedBy s k) :
    k ≠ .programTooLarge ∧ k ≠ .unsupportedAluOperation := by
  constructor <;> rintro rfl <;> exact h

theorem BlockInv.takeFault {s : State} {k : Fault} (hs : BlockInv s) (hrun : s.loop = .running) (hk : CausedBy s k) :
    BlockInv (takeFault k s) :=
  { hs with
    pcBound := fun _ => hs.pcBound (by simp [hrun])
    faultKind := by simpa using kind_of_causedBy hk }

/-! ### A step that completes -/

theorem compareFlags_atMostOne (x y : Byte) : FlagBits.atMostOne (compareFlags x y) := by
  rw [compareFlags]
  split
  · exact .inr (.inl rfl)
  · split
    · exact .inr (.inr (.inl rfl))
    · exact .inr (.inr (.inr rfl))

/-- CMP sets one flag, and no other instruction writes FL (R30, R114). -/
theorem Effect.flAtMostOne {i : Instr} {s t : State} (h : Effect i s t) (hs : FlagBits.atMostOne s.fl) :
    FlagBits.atMostOne t.fl := by
  obtain ⟨hfl, _⟩ | ⟨⟨a, b, rfl⟩, _⟩ | ⟨r, _, hfl, _⟩ := h.fl_out_cases
  · rwa [hfl]
  · obtain ⟨p, q, _, _, rfl⟩ := h
    exact compareFlags_atMostOne _ _
  · rwa [hfl]

/-- The last byte of an instruction at pc lies in memory (R84). -/
theorem HoldsAtPc.last_lt {i : Instr} {s : State} (h : HoldsAtPc i s) :
    s.pc + i.mnemonic.operandCount < s.cfg.memCapacity := by
  obtain ⟨ops, henc, hlen, _⟩ := encode_eq_cons i
  exact (h i.mnemonic.operandCount (by simp [henc, hlen])).1

/-- A target is a byte value, and an advance ends at most at MEM_CAPACITY (R26). -/
theorem Effect.pc_le {i : Instr} {s t : State} (h : Effect i s t) (hi : HoldsAtPc i s)
    (hcap : s.cfg.memCapacity ≤ 256) : t.pc ≤ 256 := by
  have hlast : s.pc + i.mnemonic.operandCount < s.cfg.memCapacity := hi.last_lt
  cases hcf : i.mnemonic.controlFlow with
  | false =>
    rw [h.pc_of_not_controlFlow hcf]
    omega
  | true =>
    obtain ⟨v, hpc⟩ | ⟨_, hpc⟩ := h.pc_of_controlFlow hcf
    · rw [hpc]
      exact v.isLt.le
    · omega

theorem BlockInv.effect {i : Instr} {s t : State} (hs : BlockInv s) (hrun : s.loop = .running) (hi : HoldsAtPc i s)
    (h : Effect i s t) : BlockInv t where
  cfgValid := h.frame.cfg ▸ hs.cfgValid
  memCanonical := by
    obtain hmem | ⟨a, v, _, _, hmem⟩ := h.frame.mem
    · exact hmem ▸ hs.memCanonical
    · exact hmem ▸ Memory.write_wf hs.memCanonical a v
  memInRange := by
    rw [h.frame.cfg]
    obtain hmem | ⟨a, v, _, ha, hmem⟩ := h.frame.mem
    · exact hmem ▸ hs.memInRange
    · exact hmem ▸ hs.write_inRange v ha
  flAtMostOne := h.flAtMostOne hs.flAtMostOne
  pcBound _ := by
    obtain ⟨_, hcap, _⟩ := hs.cfgValid
    exact h.pc_le hi hcap
  faultKind := ⟨h.loop_ne_faulted hrun _, h.loop_ne_faulted hrun _⟩

/-! ### Every step, and every reachable state -/

theorem BlockInv.step {s t : State} (hs : BlockInv s) (h : step s = .next t) : BlockInv t := by
  obtain ⟨_, rfl⟩ | ⟨hrun, k, hk, rfl⟩ | ⟨hrun, i, hi, he⟩ := step_next_cases h
  · exact hs
  · exact hs.takeFault hrun hk.causedBy
  · obtain ⟨k, hk, rfl⟩ | heff := exec_next_cases he
    · exact hs.takeFault hrun (hk.causedBy (instrAtPc_iff_holdsAtPc.mpr hi))
    · exact hs.effect hrun hi heff

/-- Settles O3: a step changes nothing, takes a fault that has a cause, or has the effect of the instruction at pc. -/
theorem everyStepKeepsTheInvariant : Obligations.EveryStepKeepsTheInvariant :=
  fun _ _ => BlockInv.step

/-- Settles O5, by induction on how the state is reached. -/
theorem reachableStatesMeetTheInvariant : Obligations.ReachableStatesMeetTheInvariant := by
  intro s hs
  induction hs with
  | construct c h => exact blockInv_construct h
  | step _ h ih => exact ih.step h
  | load bytes _ h ih => exact ih.load h
  | memoryWrite a v _ h ih => exact ih.memoryWrite h
  | registerWrite idx v _ h ih => exact ih.registerWrite h

end Sys2Proof.Machine
end

section
/-! PROOFS. 40_dispatch.md: what a step does with the instruction at pc (R81, R90), when it answers a next state, when
that state is not Faulted, and what it reports (R91); HLT (44_load_print_halt.md R142). -/

namespace Sys2Proof.Machine

open Sys2Proof.Claims

/-- Settles O13: the fetch gives the instruction whose bytes lie at pc, and the cycle runs it. -/
theorem stepRunsTheDecodedInstruction : Obligations.StepRunsTheDecodedInstruction :=
  fun _ _ hrun hi => ⟨fetch_eq_ok_iff.mpr hi, step_of_instrAtPc hrun hi⟩

/-- Settles O46: the encoding of HLT, and its effect, whose pc is left open. -/
theorem hltHalts : Obligations.HltHalts :=
  ⟨decode_encode_append .hlt,
    fun s => ⟨_, exec_of_effect (not_refuses_of_not_spForm s nofun nofun nofun) (i := .hlt) rfl⟩⟩

/-! ### Total steps -/

/-- Settles O19: a step that is not refused answers a next state, and the refused forms are R122's. -/
theorem stepsAreTotal : Obligations.StepsAreTotal := by
  intro s
  by_cases hrun : s.loop = .running
  · obtain ⟨k, _, hs⟩ | ⟨i, hi, hs⟩ := step_running_cases hrun
    · exact .inl ⟨_, hs⟩
    · by_cases hr : Refuses i s
      · have hat : InstrAtPc i s := instrAtPc_iff_holdsAtPc.mpr hi
        refine .inr ⟨hs.trans (exec_of_refuses hr), hrun, hr.1, ?_⟩
        obtain ⟨_, rfl | rfl | rfl⟩ := hr
        · exact .inl hat
        · exact .inr (.inl hat)
        · exact .inr (.inr hat)
      · exact .inl (hs ▸ exec_answers_next hr)
  · exact .inl ⟨s, step_of_terminal hrun⟩

/-! ### Safe steps -/

theorem Refuses.not_completesNormally {i : Instr} {s : State} (h : Refuses i s) : ¬ CompletesNormally i s := by
  obtain ⟨hpol, hform⟩ := h
  have hne : s.cfg.spPolicy ≠ .sequential := by simp [hpol]
  obtain rfl | rfl | rfl := hform <;> exact fun hc => hne (hc.1 rfl)

/-- PUSH's condition is that there is room (R120). -/
theorem PushRaises.not_lt {s : State} {k : Fault} (h : PushRaises s k) :
    ¬ (s.sp ≠ 0 ∧ s.sp.toNat - 1 < s.cfg.memCapacity) :=
  fun ⟨hsp, hlt⟩ => h.not_room (room_of_lt hsp hlt)

/-- An instruction with valid operands raises only where its own condition fails. -/
theorem Raises.not_completesNormally {i : Instr} {s : State} {k : Fault} (h : Raises i s k) (hv : s.cfg.Valid)
    (hwf : i.WellFormed) : ¬ CompletesNormally i s := by
  obtain ⟨⟨r, rfl⟩, hpush⟩ | ⟨⟨r, rfl⟩, hcall⟩ | ⟨hform, hpop⟩ | ⟨a, b, hform, h0, _⟩ := h.cases_of_wellFormed hwf
  · exact fun ⟨_, hroom⟩ => hpush.not_lt hroom
  · rintro ⟨_, hfit, hroom⟩
    obtain ⟨_, hbig⟩ | ⟨_, hpush⟩ := hcall
    · omega
    · exact hpush.not_lt hroom
  · have htop : s.cfg.stackTop ≤ s.sp.toNat := (hpop.eq_stackUnderflow hv).2
    obtain rfl | ⟨r, rfl⟩ := hform
    · exact htop.not_gt
    · exact fun ⟨_, hlt⟩ => htop.not_gt hlt
  · obtain rfl | rfl := hform <;> exact fun hc => hc b rfl h0

/-- A form that is not refused has R7 as its operand under `Sequential` only (R122). -/
theorem sequential_of_not_refuses {i : Instr} {s : State} (hn : ¬ Refuses i s)
    (hi : i = .push 7 ∨ i = .pop 7 ∨ i = .call 7) : s.cfg.spPolicy = .sequential := by
  cases hpol : s.cfg.spPolicy with
  | refuse => exact absurd ⟨hpol, hi⟩ hn
  | sequential => rfl

/-- Room, as the statements write it. -/
theorem Room.lt {s : State} (h : Room s) : s.sp ≠ 0 ∧ s.sp.toNat - 1 < s.cfg.memCapacity := by
  obtain ⟨hsp, hlt⟩ := h
  exact ⟨hsp, toNat_pred hsp ▸ hlt⟩

/-- The divisor is the register that the operand byte names. -/
theorem DivideEffect.divisor_ne_zero {f : Byte → Byte → Byte} {a b : Byte} {s t : State} (h : DivideEffect f a b s t)
    (q : RegIndex) (hq : b = regByte q) : s.reg q ≠ 0 := by
  obtain ⟨_, q', _, rfl, h0, _⟩ := h
  rwa [← regByte_injective hq]

/-- An instruction that completes meets its condition. -/
theorem Effect.completesNormally {i : Instr} {s t : State} (h : Effect i s t) (hn : ¬ Refuses i s) :
    CompletesNormally i s := by
  cases i with
  | hlt | prn _ | jmp _ | jeq _ | jne _ | not _ | ldi _ _ => trivial
  | add _ _ | sub _ _ | mul _ _ | cmp _ _ | and _ _ | or _ _ | xor _ _ | shl _ _ | shr _ _ => trivial
  | div a b | mod a b => exact DivideEffect.divisor_ne_zero h
  | push r =>
    obtain ⟨_, _, hroom, _⟩ := h
    exact ⟨fun hr => sequential_of_not_refuses hn (.inl (congrArg _ hr)), hroom.lt⟩
  | call r =>
    obtain ⟨_, _, hfit, hroom, _⟩ := h
    exact ⟨fun hr => sequential_of_not_refuses hn (.inr (.inr (congrArg _ hr))), hfit, hroom.lt⟩
  | pop r =>
    obtain ⟨_, _, ⟨htop, _⟩, _⟩ := h
    exact ⟨fun hr => sequential_of_not_refuses hn (.inr (.inl (congrArg _ hr))), htop⟩
  | ret =>
    obtain ⟨⟨htop, _⟩, _⟩ := h
    exact htop

theorem not_safeStep_of_refused {s : State} {r : Refusal} (h : step s = .refused r) : ¬ SafeStep s := by
  rintro ⟨t, ht, _⟩
  cases h.symm.trans ht

theorem not_safeStep_of_takeFault {s : State} {k : Fault} (h : step s = .next (takeFault k s)) : ¬ SafeStep s := by
  rintro ⟨t, ht, hsafe⟩
  cases h.symm.trans ht
  exact hsafe k rfl

/-- Settles O20: the instruction at pc goes one of three ways; refused or raising it is not safe and fails a condition,
completing it is safe and meets both. -/
theorem safeStepsAreExactlyThese : Obligations.SafeStepsAreExactlyThese := by
  intro s i hv hrun hi
  have hstep : step s = exec i s := step_of_instrAtPc hrun hi
  obtain ⟨hr, ho⟩ | ⟨_, k, hk, ho⟩ | ⟨hn, t, ht, ho⟩ := exec_cases i s
  · exact iff_of_false (not_safeStep_of_refused (hstep.trans ho)) fun hc => hr.not_completesNormally hc.2
  · exact iff_of_false (not_safeStep_of_takeFault (hstep.trans ho)) fun hc => hk.not_completesNormally hv hc.1 hc.2
  · exact iff_of_true ⟨t, hstep.trans ho, ht.loop_ne_faulted hrun⟩ ⟨ht.wellFormed, ht.completesNormally hn⟩

/-! ### The report of a step -/

/-- Bytes that lie in memory from an address on are the first of the bytes read there. -/
theorem take_bytesFrom {bs : List Byte} {n a : Nat} {s : State} (hlen : bs.length ≤ n)
    (h : ∀ j b, bs[j]? = some b → a + j < s.cfg.memCapacity ∧ Memory.read s.mem (a + j) = b) :
    (bytesFrom n a s).take bs.length = bs := by
  induction bs generalizing n a with
  | nil => exact List.take_zero
  | cons b bs ih =>
    cases n with
    | zero => cases hlen
    | succ n =>
      obtain ⟨hlt, hread⟩ := h 0 b rfl
      rw [Nat.add_zero] at hlt hread
      have htail : (bytesFrom n (a + 1) s).take bs.length = bs := by
        refine ih (Nat.le_of_succ_le_succ hlen) fun j b' hj => ?_
        rw [Nat.add_assoc, Nat.add_comm 1 j]
        exact h (j + 1) b' hj
      rw [bytesFrom, if_pos hlt, List.length_cons, List.take_succ_cons, htail]
      exact congrArg (· :: bs) hread

theorem encode_length_le (i : Instr) : (encode i).length ≤ 3 := by
  obtain ⟨ops, henc, hlen, _⟩ := encode_eq_cons i
  have hcount : i.mnemonic.operandCount ≤ 2 := operandCount_le_two i.mnemonic
  rw [henc, List.length_cons]
  omega

/-- A Running step reads the opcode byte of the instruction at pc and its operand bytes. -/
theorem fetchedBytes_of_instrAtPc {i : Instr} {s : State} (hrun : s.loop = .running) (hi : InstrAtPc i s) :
    ∃ ops, encode i = i.mnemonic.opcode :: ops ∧ fetchedBytes s = (some i.mnemonic.opcode, ops) := by
  obtain ⟨ops, henc, hlen, _⟩ := encode_eq_cons i
  have htake : (bytesAtPc s).take (encode i).length = encode i := take_bytesFrom (encode_length_le i) hi
  refine ⟨ops, henc, ?_⟩
  rw [henc] at htake
  cases hb : bytesAtPc s with
  | nil =>
    rw [hb] at htake
    cases htake
  | cons b rest =>
    rw [hb, List.length_cons, List.take_succ_cons] at htake
    obtain ⟨rfl, hops⟩ := List.cons.inj htake
    simp only [fetchedBytes, hrun, hb, decodeOpcode_opcode, ← hlen, hops]

theorem fetchedBytes_of_not_running {s : State} (h : s.loop ≠ .running) : fetchedBytes s = (none, []) := by
  rw [fetchedBytes]
  split
  · next hrun _ => exact absurd hrun h
  · rfl

/-- Settles O59: the bytes reported are those that the fetch reads, none in a terminal loop state. -/
theorem stepReportShowsTheInstruction : Obligations.StepReportShowsTheInstruction := by
  refine ⟨fun s i hrun hi => ⟨rfl, rfl, ?_⟩, fun s hs => ?_⟩
  · obtain ⟨ops, henc, hbytes⟩ := fetchedBytes_of_instrAtPc hrun hi
    rw [stepReport, hbytes, henc]
    rfl
  · rw [stepReport, fetchedBytes_of_not_running hs, stepCommand_of_next (step_of_terminal hs)]
    exact ⟨rfl, rfl, rfl⟩

/-! ### Runs that have ended -/

/-- More budget does not change a run that has ended before its budget was spent. -/
theorem runBudget_of_le {n m : Nat} {s t : State} {e : RunEnd} (he : e ≠ .cycleBudgetExceeded)
    (h : runBudget n s = (e, t)) (hle : n ≤ m) : runBudget m s = (e, t) := by
  induction n generalizing m s with
  | zero =>
    cases hl : s.loop with
    | running =>
      rw [runBudget, hl] at h
      cases h
      exact absurd rfl he
    | halted => rwa [runBudget_of_halted hl] at h ⊢
    | faulted k => rwa [runBudget_of_faulted hl] at h ⊢
  | succ n ih =>
    cases hl : s.loop with
    | halted => rwa [runBudget_of_halted hl] at h ⊢
    | faulted k => rwa [runBudget_of_faulted hl] at h ⊢
    | running =>
      obtain ⟨m, rfl⟩ : ∃ m', m = m' + 1 := Nat.exists_eq_add_of_le' (Nat.one_le_of_lt hle)
      obtain ⟨u, hu⟩ | ⟨r, hr⟩ := step_next_or_refused s
      · rw [runBudget_succ_of_next hl hu] at h ⊢
        exact ih h (Nat.le_of_succ_le_succ hle)
      · rwa [runBudget_succ_of_refused hl hr] at h ⊢

/-- Of two budgets that end a run the greater one gives the end of both. -/
theorem runEnds_none_unique {s t t' : State} {e e' : RunEnd} (h : RunEnds none s e t) (h' : RunEnds none s e' t') :
    e = e' ∧ t = t' := by
  obtain ⟨he, n, hn⟩ := h
  obtain ⟨he', n', hn'⟩ := h'
  have hmax := runBudget_of_le he hn (le_max_left n n')
  have hmax' := runBudget_of_le he' hn' (le_max_right n n')
  exact Prod.mk.inj (hmax.symm.trans hmax')

/-- Settles O58: by induction on the smaller budget, and from that for two budgets. -/
theorem endedRunsAreDetermined : Obligations.EndedRunsAreDetermined :=
  ⟨fun _ _ _ _ _ => runBudget_of_le, fun _ _ _ _ _ => runEnds_none_unique⟩

end Sys2Proof.Machine
end

section
/-! PROOFS. Two instructions in a row over one stack cell: PUSH and POP (42_stack.md), CALL and RET
(43_control_flow.md), and PUSH of the opcode byte of the next instruction (20_memory.md, instruction-fetch coherence). -/

namespace Sys2Proof.Machine

open Sys2Proof.Claims

/-! ### The state after a push -/

section AfterPush

variable (s : State) (v : Byte) (pc : Nat)

@[simp] theorem pushed_regs : (pushed s v pc).regs = s.regs.set 7 (s.sp - 1) := rfl
@[simp] theorem pushed_pc : (pushed s v pc).pc = pc := rfl
@[simp] theorem pushed_mem : (pushed s v pc).mem = Memory.write s.mem (s.sp - 1).toNat v := rfl
@[simp] theorem pushed_loop : (pushed s v pc).loop = s.loop := rfl
@[simp] theorem pushed_cfg : (pushed s v pc).cfg = s.cfg := rfl
@[simp] theorem pushed_sp : (pushed s v pc).sp = s.sp - 1 := State.setSp_sp s (s.sp - 1)

/-- The byte pushed is the one at the new SP. -/
theorem read_pushed_sp : Memory.read (pushed s v pc).mem (pushed s v pc).sp.toNat = v := by simp

end AfterPush

/-! ### A pop after it -/

/-- SP between 1 and a legal STACK_TOP leaves room for a push. -/
theorem room_of_le_stackTop {s : State} (hv : s.cfg.Valid) (h1 : s.sp ≠ 0) (htop : s.sp.toNat ≤ s.cfg.stackTop) :
    Room s := by
  obtain ⟨_, _, hpos, hle, _⟩ := hv
  exact room_of_lt h1 (by omega)

/-- One below such an SP there is an item to pop. -/
theorem item_of_sp_eq_pred {s u : State} (hv : s.cfg.Valid) (h1 : s.sp ≠ 0) (htop : s.sp.toNat ≤ s.cfg.stackTop)
    (hcfg : u.cfg = s.cfg) (hsp : u.sp = s.sp - 1) : Item u := by
  obtain ⟨_, _, hpos, hle, _⟩ := hv
  rw [Item, hcfg, hsp, toNat_pred h1]
  omega

theorem sp_ne_zero_of_pos {s : State} (h : 1 ≤ s.sp.toNat) : s.sp ≠ 0 := by
  intro h0
  simp [h0] at h

/-- SP lowered and raised, and a register written with its own value: the register file is as before. -/
theorem set_sp_restore (s : State) (r : RegIndex) :
    (((s.regs.set 7 (s.sp - 1)).set 7 (s.sp - 1 + 1)).set r (s.reg r)) = s.regs := by
  simp [State.sp, State.reg]

/-- Settles O37: the POP reads the byte just pushed and puts SP back; outside the bounds one of the two faults. -/
theorem pushThenPopRestores : Obligations.PushThenPopRestores := by
  refine fun s r hr hv => ⟨fun h1 htop => ?_, fun h0 => push_faults (absurd · hr) (.inl ⟨rfl, h0⟩),
    fun htop hcap => ?_⟩
  · have hsp : s.sp ≠ 0 := sp_ne_zero_of_pos h1
    have hitem : Item (pushed s (s.reg r) (s.pc + 2)) := item_of_sp_eq_pred hv hsp htop rfl (pushed_sp s _ _)
    refine ⟨_, _, exec_push_of_ne hr (room_of_le_stackTop hv hsp htop), exec_pop_of_ne hr hitem, ?_, rfl, rfl, rfl,
      rfl, ?_⟩
    · rw [read_pushed_sp, pushed_sp]
      exact set_sp_restore s r
    · exact toNat_pred hsp ▸ storedAt_write s.mem _ (s.reg r)
  · have hsp : s.sp ≠ 0 := sp_ne_zero_of_pos (by omega)
    refine ⟨_, exec_push_of_ne hr (room_of_lt hsp (by omega)), pop_faults (absurd · hr) (.inl ⟨rfl, ?_⟩)⟩
    rw [pushed_cfg, pushed_sp, toNat_pred hsp]
    omega

/-- Settles O43: the RET reads the return address, which fits a byte, from where the CALL put it. -/
theorem callThenRetReturns : Obligations.CallThenRetReturns := by
  intro s u r hv hr hpc h1 htop
  have hsp : s.sp ≠ 0 := sp_ne_zero_of_pos h1
  refine ⟨_, exec_call_of_ne hr hpc (room_of_le_stackTop hv hsp htop), fun hcfg husp hread => ?_⟩
  have hpred : u.sp = s.sp - 1 := husp.trans (pushed_sp s _ _)
  have hret : (BitVec.ofNat 8 (s.pc + 2)).toNat = s.pc + 2 := Nat.mod_eq_of_lt (by omega)
  rw [exec_ret_of_item (item_of_sp_eq_pred hv hsp htop hcfg hpred), hread, read_pushed_sp, hret, hpred,
    BitVec.sub_add_cancel]
  rfl

/-! ### The fetch of a pushed byte -/

/-- An instruction whose opcode byte is the byte just pushed, and whose operand bytes lie above it. -/
theorem instrAtPc_pushed {s : State} {v : Byte} {i : Instr} {ops : List Byte} (henc : encode i = v :: ops)
    (hlt : (s.sp - 1).toNat < s.cfg.memCapacity)
    (hops : ∀ n b, ops[n]? = some b →
      (s.sp - 1).toNat + 1 + n < s.cfg.memCapacity ∧ Memory.read s.mem ((s.sp - 1).toNat + 1 + n) = b) :
    InstrAtPc i (pushed s v (s.sp - 1).toNat) := by
  intro n b hb
  rw [henc] at hb
  cases n with
  | zero =>
    cases hb
    exact ⟨hlt, Memory.read_write_same s.mem _ v⟩
  | succ n =>
    have haddr : (s.sp - 1).toNat + (n + 1) = (s.sp - 1).toNat + 1 + n := by omega
    rw [pushed_pc, pushed_cfg, pushed_mem, haddr, Memory.read_write_other s.mem v (by omega)]
    exact hops n b hb

/-- Settles O60: SP - 1 is where the PUSH ends, so the fetch of the next step reads the byte pushed. -/
theorem pushedOpcodeRunsNext : Obligations.PushedOpcodeRunsNext := by
  intro s r hrun hr hi hsp hcap
  have hsp0 : s.sp ≠ 0 := sp_ne_zero_of_pos (by omega)
  have haddr : (s.sp - 1).toNat = s.pc + 2 := by rw [toNat_pred hsp0, hsp]; rfl
  have hpush := exec_push_of_ne hr (s := s) ⟨hsp0, haddr ▸ hcap⟩
  have hread : Memory.read (pushed s (s.reg r) (s.pc + 2)).mem (s.pc + 2) = s.reg r := by
    rw [← haddr]
    exact Memory.read_write_same s.mem _ (s.reg r)
  refine ⟨_, (step_of_instrAtPc hrun hi).trans hpush, hrun, rfl, ?_, fun hnone => ?_, fun m hm hge => ?_,
    fun i ops henc hops => ?_⟩
  · exact (memRead_of_lt (s := pushed s (s.reg r) (s.pc + 2)) hcap).trans (congrArg _ hread)
  · exact step_of_fetch_error hrun (fetch_of_illegalOpcode hcap (hread.symm ▸ decodeOpcode_eq_none_iff.mp hnone))
  · exact step_of_fetch_error hrun (fetch_of_operand_ge hcap (hread.symm ▸ hm) (by omega) le_rfl hge)
  · refine step_of_instrAtPc hrun ?_
    rw [← haddr] at hcap ⊢
    exact instrAtPc_pushed henc hcap fun n b hb => haddr ▸ hops n b hb

end Sys2Proof.Machine
end
